-- ==== Sys2Proof/Word.lean ====
section
/-! DEFINITION. The values of 00_scope.md R8, R9 and 30_encoding.md R80 to R88, as types: words, timestamps, the tri-state
type, the two channels and the three resolution modes. -/

namespace Sys2Proof

/-- A 32-bit value: `counter`, a `result`, the argument of `Notify` (R85, R94, R95). -/
abbrev Word := BitVec 32

/-- A timestamp or a duration in microseconds, `W_T` = 32 bits, unsigned (R7, R86). -/
abbrev Stamp := BitVec 32

/-- An operation word, 40 bits (R88). -/
abbrev OpWord := BitVec 40

/-- The type `tri` of R9: exactly three values. The fourth 2-bit pattern of R82 is no value of it (R34). -/
inductive Tri
  | neg   -- -1
  | zero  -- 0
  | pos   -- +1
  deriving DecidableEq, Repr

/-- The two channels of the quadrature pair (R14). -/
inductive Channel
  | a
  | b
  deriving DecidableEq, Repr

/-- `MODE`, the resolution mode (R7, R30): Standard, Double, Quadruple. -/
inductive Mode
  | std
  | dbl
  | quad
  deriving DecidableEq, Repr

end Sys2Proof
end

