-- ==== Sys2Proof/Config.lean ====
section
/-! DEFINITION. The implementation parameters of 00_scope.md R7 that are left to the model, as plain data. State carries one
`Params`, which no operation writes, so that a statement for every state is a statement for every choice of them (log 5).
The spec leaves no value open, so there is no opaque constant. -/

namespace Sys2Proof

/-- `BUS_W`, the width of one beat of a non-atomic counter read: "8, any of 8, 16, 32" (R7). -/
inductive BusW
  | b8
  | b16
  | b32
  deriving DecidableEq, Repr

/-- `BUS_W` in bits. -/
def busBits : BusW → Nat
  | .b8 => 8
  | .b16 => 16
  | .b32 => 32

/-- `32 / BUS_W`, the number of beats of one counter read (R62). -/
def beatCount (w : BusW) : Nat := 32 / busBits w

/-- `ARM_SEED` (R7, R181): `ownLevel` seeds each `arm` from its own pin; `given` takes the seeds as two free `tri` values,
"a model may instead quantify over all nine seed pairs". -/
inductive ArmSeed
  | ownLevel
  | given (a b : Tri)
  deriving DecidableEq, Repr

/-- The parameters of R7 that are a choice of the implementation. `MODE`, `VALID_A`, `VALID_B` are operands of `CONSTRUCT`;
`W_C`, `W_T`, `HOLDOFF_DEFAULT` and `OVERFLOW` have one value each. -/
structure Params where
  /-- `BUS_W`. -/
  busW : BusW
  /-- `NATIVE_ATOMIC`: selects the accessor's strategy (R161). -/
  nativeAtomic : Bool
  /-- `ARM_SEED`. -/
  armSeed : ArmSeed
  /-- `HANDLER_ATOMIC`: true is the normative atomic model, false the refinement of R232 to R238. -/
  handlerAtomic : Bool
  deriving DecidableEq, Repr

/-- The values R7 gives: `BUS_W` 8, `ARM_SEED` own level, `HANDLER_ATOMIC` true. R7 gives `NATIVE_ATOMIC` none
(DESIGN CHOICE, log 5: false). -/
def Params.spec : Params :=
  { busW := .b8, nativeAtomic := false, armSeed := .ownLevel, handlerAtomic := true }

/-- The mode of the `CONSTRUCT` whose result State.reset is (DESIGN CHOICE, log 1). -/
def resetMode : Mode := .std

end Sys2Proof
end

