-- ==== Sys2Proof/Syntax.lean ====
section
/-! DEFINITION. The operations: one constructor per row of spec/opcode_table.json (30_encoding.md R90, R92). `EDGE_A` and
`EDGE_B` have one constructor per mode, as the table has one row per mode. -/

namespace Sys2Proof

/-- An operation with its operands. In an `EDGE_A` row `lvl` is the level of pin B, in an `EDGE_B` row of pin A; `t` is the
clock at handler entry (R89, R111). -/
inductive Instr
  | nop
  | edgeAStd (lvl : Bool) (t : Stamp)
  | edgeADbl (lvl : Bool) (t : Stamp)
  | edgeAQuad (lvl : Bool) (t : Stamp)
  | edgeBStd (lvl : Bool) (t : Stamp)
  | edgeBDbl (lvl : Bool) (t : Stamp)
  | edgeBQuad (lvl : Bool) (t : Stamp)
  | setHoldoff (imm : Stamp)
  | setListener (en : Bool)
  | readPosition
  | isValid
  | construct (m : Mode) (lvlA lvlB vA vB : Bool)
  | detach
  | suspend
  | resume
  | readBeat (k : BitVec 2)
  deriving DecidableEq, Repr

/-- The channel and mode of an edge row, nothing for the other operations. -/
def Instr.edgeOf : Instr → Option (Channel × Mode)
  | .edgeAStd _ _ => some (.a, .std)
  | .edgeADbl _ _ => some (.a, .dbl)
  | .edgeAQuad _ _ => some (.a, .quad)
  | .edgeBStd _ _ => some (.b, .std)
  | .edgeBDbl _ _ => some (.b, .dbl)
  | .edgeBQuad _ _ => some (.b, .quad)
  | .nop | .setHoldoff _ | .setListener _ | .readPosition | .isValid | .construct _ _ _ _ _
  | .detach | .suspend | .resume | .readBeat _ => none

end Sys2Proof
end

