-- ==== Sys2Proof/WellFormed.lean ====
section
/-! DEFINITION. Which operations are well-formed on a machine in mode `m` with beat width `w`: an edge row names the mode it
is selected by (R92), a beat index is in range (R91, R93). Every other operand's type admits exactly its legal values. -/

namespace Sys2Proof

/-- R92: an edge row is the operation of its opcode only when `mode` is the row's mode. -/
def Instr.modeOk (m : Mode) (i : Instr) : Bool :=
  match i.edgeOf with
  | some (_, n) => n == m
  | none => true

/-- R91: `k` is "legal when `k < 32 / BUS_W`". -/
def Instr.beatOk (w : BusW) : Instr → Bool
  | .readBeat k => k.toNat < beatCount w
  | .nop | .edgeAStd _ _ | .edgeADbl _ _ | .edgeAQuad _ _ | .edgeBStd _ _ | .edgeBDbl _ _ | .edgeBQuad _ _
  | .setHoldoff _ | .setListener _ | .readPosition | .isValid | .construct _ _ _ _ _
  | .detach | .suspend | .resume => true

/-- A well-formed operation of a machine in mode `m` with beat width `w`. -/
def Instr.wf (m : Mode) (w : BusW) (i : Instr) : Bool := i.modeOk m && i.beatOk w

end Sys2Proof
end

