-- ==== Sys2Proof/Decode.lean ====
section
/-! DEFINITION. The operation word of 30_encoding.md R88 to R93: the decoder, total on 40-bit words and rejecting reserved
words by name, then the encoder, then the opcode table of R90. -/

namespace Sys2Proof

/-- Why a word is reserved (R93). -/
inductive Reserved
  | opcode      -- `op` is 0x3, 0xD, 0xE or 0xF
  | unnamedBit  -- a bit its format requires to be 0 is 1
  | modeCode    -- a `CONSTRUCT` with `m = 0b11`
  | beatIndex   -- a `READ_BEAT` with `k >= 32 / BUS_W`
  deriving DecidableEq, Repr

/-! ## The fields of R88 -/

/-- `op`, bits 39:36. -/
def opField (w : OpWord) : BitVec 4 := w.extractLsb' 36 4

/-- `aux`, bits 35:32. -/
def auxField (w : OpWord) : BitVec 4 := w.extractLsb' 32 4

/-- `data`, bits 31:0. -/
def dataField (w : OpWord) : BitVec 32 := w.extractLsb' 0 32

/-- The word `{op, aux, data}`. -/
def opWord (op aux : BitVec 4) (data : BitVec 32) : OpWord := op ++ aux ++ data

/-! ## The codes of R84 -/

/-- R84: `0b00` STD, `0b01` DBL, `0b10` QUAD. -/
def modeCode : Mode → BitVec 2
  | .std => 0b00#2
  | .dbl => 0b01#2
  | .quad => 0b10#2

/-- R84 read back: `0b11` is reserved. -/
def modeOfCode (c : BitVec 2) : Option Mode :=
  if c = 0b00#2 then some .std
  else if c = 0b01#2 then some .dbl
  else if c = 0b10#2 then some .quad
  else none

/-! ## The handler an edge selects -/

/-- R92: the row of `EDGE_A` in mode `m`. -/
def edgeARow (m : Mode) (lvl : Bool) (t : Stamp) : Instr :=
  match m with
  | .std => .edgeAStd lvl t
  | .dbl => .edgeADbl lvl t
  | .quad => .edgeAQuad lvl t

/-- R92: the row of `EDGE_B` in mode `m`. -/
def edgeBRow (m : Mode) (lvl : Bool) (t : Stamp) : Instr :=
  match m with
  | .std => .edgeBStd lvl t
  | .dbl => .edgeBDbl lvl t
  | .quad => .edgeBQuad lvl t

/-- The row of an edge of channel `x` in mode `m`. -/
def edgeRow (x : Channel) (m : Mode) (lvl : Bool) (t : Stamp) : Instr :=
  match x with
  | .a => edgeARow m lvl t
  | .b => edgeBRow m lvl t

/-! ## The six formats of R89 -/

/-- Format `N`: `aux` and `data` are 0. -/
def formatN (w : OpWord) (i : Instr) : Except Reserved Instr :=
  if auxField w = 0#4 ∧ dataField w = 0#32 then .ok i else .error .unnamedBit

/-- Format `E`: `aux[0]` is `lvl`, `data` is `t`. -/
def formatE (w : OpWord) (row : Bool → Stamp → Instr) : Except Reserved Instr :=
  if (auxField w).extractLsb' 1 3 = 0#3 then .ok (row ((auxField w).getLsbD 0) (dataField w))
  else .error .unnamedBit

/-- Format `H`: `aux` is 0, `data` is `imm`. -/
def formatH (w : OpWord) : Except Reserved Instr :=
  if auxField w = 0#4 then .ok (.setHoldoff (dataField w)) else .error .unnamedBit

/-- Format `L`: `aux[0]` is `en`, `data` is 0. -/
def formatL (w : OpWord) : Except Reserved Instr :=
  if (auxField w).extractLsb' 1 3 = 0#3 ∧ dataField w = 0#32 then
    .ok (.setListener ((auxField w).getLsbD 0))
  else .error .unnamedBit

/-- Format `K`: `aux[1:0]` is `k`, `data` is 0; `k < 32 / BUS_W`. -/
def formatK (b : BusW) (w : OpWord) : Except Reserved Instr :=
  if (auxField w).extractLsb' 2 2 = 0#2 ∧ dataField w = 0#32 then
    if ((auxField w).extractLsb' 0 2).toNat < beatCount b then
      .ok (.readBeat ((auxField w).extractLsb' 0 2))
    else .error .beatIndex
  else .error .unnamedBit

/-- Format `C`: `aux[1:0]` is `m`, `data[3:0]` is `vB vA lvlB lvlA`. -/
def formatC (w : OpWord) : Except Reserved Instr :=
  if (auxField w).extractLsb' 2 2 = 0#2 ∧ (dataField w).extractLsb' 4 28 = 0#28 then
    match modeOfCode ((auxField w).extractLsb' 0 2) with
    | some m =>
      .ok (.construct m ((dataField w).getLsbD 0) ((dataField w).getLsbD 1) ((dataField w).getLsbD 2)
        ((dataField w).getLsbD 3))
    | none => .error .modeCode
  else .error .unnamedBit

/-- The decoder: the operation of word `w` on a machine in mode `m` with beat width `b` (R90 to R93). The only state that
changes how a word is read is `mode` (R98). -/
def decode (m : Mode) (b : BusW) (w : OpWord) : Except Reserved Instr :=
  match (opField w).toNat with
  | 0x0 => formatN w .nop
  | 0x1 => formatE w (edgeARow m)
  | 0x2 => formatE w (edgeBRow m)
  | 0x4 => formatH w
  | 0x5 => formatL w
  | 0x6 => formatN w .readPosition
  | 0x7 => formatN w .isValid
  | 0x8 => formatC w
  | 0x9 => formatN w .detach
  | 0xA => formatN w .suspend
  | 0xB => formatN w .resume
  | 0xC => formatK b w
  | _ => .error .opcode

/-! ## The encoder (R89, R96) -/

/-- One bit as `aux[0]`. -/
def auxOfBit (v : Bool) : BitVec 4 := 0#3 ++ BitVec.ofBool v

/-- Two bits as `aux[1:0]`. -/
def auxOfPair (v : BitVec 2) : BitVec 4 := 0#2 ++ v

/-- The `data` of a `CONSTRUCT`: "28 zero bits, vB, vA, lvlB, lvlA" (R96). -/
def constructData (lvlA lvlB vA vB : Bool) : BitVec 32 :=
  0#28 ++ BitVec.ofBool vB ++ BitVec.ofBool vA ++ BitVec.ofBool lvlB ++ BitVec.ofBool lvlA

/-- The word of an operation. -/
def encode : Instr → OpWord
  | .nop => opWord 0x0#4 0#4 0#32
  | .edgeAStd lvl t => opWord 0x1#4 (auxOfBit lvl) t
  | .edgeADbl lvl t => opWord 0x1#4 (auxOfBit lvl) t
  | .edgeAQuad lvl t => opWord 0x1#4 (auxOfBit lvl) t
  | .edgeBStd lvl t => opWord 0x2#4 (auxOfBit lvl) t
  | .edgeBDbl lvl t => opWord 0x2#4 (auxOfBit lvl) t
  | .edgeBQuad lvl t => opWord 0x2#4 (auxOfBit lvl) t
  | .setHoldoff imm => opWord 0x4#4 0#4 imm
  | .setListener en => opWord 0x5#4 (auxOfBit en) 0#32
  | .readPosition => opWord 0x6#4 0#4 0#32
  | .isValid => opWord 0x7#4 0#4 0#32
  | .construct m lvlA lvlB vA vB =>
    opWord 0x8#4 (auxOfPair (modeCode m)) (constructData lvlA lvlB vA vB)
  | .detach => opWord 0x9#4 0#4 0#32
  | .suspend => opWord 0xA#4 0#4 0#32
  | .resume => opWord 0xB#4 0#4 0#32
  | .readBeat k => opWord 0xC#4 (auxOfPair k) 0#32

/-! ## The opcode table of R90 -/

/-- `match` and `mask` of an operation's row, as spec/opcode_table.json prints them. -/
def tableRow : Instr → OpWord × OpWord
  | .nop => (0x0000000000#40, 0xFFFFFFFFFF#40)
  | .edgeAStd _ _ => (0x1000000000#40, 0xFE00000000#40)
  | .edgeADbl _ _ => (0x1000000000#40, 0xFE00000000#40)
  | .edgeAQuad _ _ => (0x1000000000#40, 0xFE00000000#40)
  | .edgeBStd _ _ => (0x2000000000#40, 0xFE00000000#40)
  | .edgeBDbl _ _ => (0x2000000000#40, 0xFE00000000#40)
  | .edgeBQuad _ _ => (0x2000000000#40, 0xFE00000000#40)
  | .setHoldoff _ => (0x4000000000#40, 0xFF00000000#40)
  | .setListener _ => (0x5000000000#40, 0xFEFFFFFFFF#40)
  | .readPosition => (0x6000000000#40, 0xFFFFFFFFFF#40)
  | .isValid => (0x7000000000#40, 0xFFFFFFFFFF#40)
  | .construct _ _ _ _ _ => (0x8000000000#40, 0xFCFFFFFFF0#40)
  | .detach => (0x9000000000#40, 0xFFFFFFFFFF#40)
  | .suspend => (0xA000000000#40, 0xFFFFFFFFFF#40)
  | .resume => (0xB000000000#40, 0xFFFFFFFFFF#40)
  | .readBeat _ => (0xC000000000#40, 0xFCFFFFFFFF#40)

/-- R90: "a word `w` is the operation when `(w AND mask) == match`". -/
def matchesRow (w : OpWord) (row : OpWord × OpWord) : Bool := w &&& row.2 == row.1

/-- The distinct rows of R90, one per opcode. -/
def opcodeRows : List (OpWord × OpWord) :=
  [(0x0000000000#40, 0xFFFFFFFFFF#40), (0x1000000000#40, 0xFE00000000#40),
   (0x2000000000#40, 0xFE00000000#40), (0x4000000000#40, 0xFF00000000#40),
   (0x5000000000#40, 0xFEFFFFFFFF#40), (0x6000000000#40, 0xFFFFFFFFFF#40),
   (0x7000000000#40, 0xFFFFFFFFFF#40), (0x8000000000#40, 0xFCFFFFFFF0#40),
   (0x9000000000#40, 0xFFFFFFFFFF#40), (0xA000000000#40, 0xFFFFFFFFFF#40),
   (0xB000000000#40, 0xFFFFFFFFFF#40), (0xC000000000#40, 0xFCFFFFFFFF#40)]

/-! ## The table's numbering -/

/-- The operation word of the host's `nbits`-bit number `w`: a word is 40 bits and bit 0 is its least significant bit (R8, R88), so the
host's numbering is the word's own and `nbits` is 40 in every row. -/
def wordOfTable (nbits w : Nat) : OpWord := BitVec.ofNat 40 (w % 2 ^ nbits)

/-- The operation read from a table word right after reset: in the mode and with the beat width of State.reset (log 4), since an
edge word names no mode (R92). -/
def decodeTableWord (nbits w : Nat) : Option Instr :=
  (decode resetMode Params.spec.busW (wordOfTable nbits w)).toOption

end Sys2Proof
end

