-- ==== Sys2Proof/Machine/State.lean ====
section
/-! DEFINITION. The state of the block (10_state.md R20, R40, R41), the events that drive it, the reasons a step can be refused, and
the state after reset. Plain data throughout. -/

namespace Sys2Proof.Machine

open Sys2Proof

/-- Why the machine stops with a fault: never. R190: "No operation is fatal; the system has no crash/abort paths of its own."
The type has no constructor, so no meaning can raise one. -/
inductive Fault
  deriving DecidableEq, Repr

/-- Why a step is refused (R12, R195): the spec gives the operation no meaning in this state or with these operands. -/
inductive Refusal
  /-- An instruction with no meaning yet: raised by no arm of `exec` in this model. Safe. -/
  | notModelled (mnemonic : String)
  /-- A reserved word (R93): raised by the decoder's caller and, for a beat index out of range, by `READ_BEAT`'s meaning. Safe: the spec
  refuses it too. -/
  | reservedWord (why : Reserved)
  /-- An edge row used while `mode` is not the row's mode (R92): raised by the six edge meanings; no decoded word leads here. Safe (log 4). -/
  | handlerNotWired
  /-- A micro-step event on a machine whose `HANDLER_ATOMIC` is true (R238): raised by `startHandler` and `microStep`. Safe (log 9). -/
  | handlersAreAtomic
  /-- A micro-step event for a channel with no handler in flight (R233): raised by `microStep`. Safe (log 9). -/
  | noHandlerInFlight
  deriving DecidableEq, Repr

/-- What the last operation came to (R12). The third outcome, refused, ends the step instead. -/
inductive OpOutcome
  | done
  | held
  deriving DecidableEq, Repr

/-- The next micro-step of a handler in flight (R232), with the values the handler carries: its operands `t` and `s`, the value a
read micro-step hands to the write that uses it, and nothing else. Numbers are those of the table of R232. -/
inductive Micro
  | inputT                                      -- 1
  | inputLvl (t : Stamp)                        -- 2
  | armOther (t : Stamp) (s : Tri)              -- between 2 and 3
  | testDisarmed (t : Stamp) (s : Tri)          -- 3
  | testHoldoff (t : Stamp) (s : Tri)           -- 4
  | testElapsed (t : Stamp) (s : Tri)           -- 5
  | readPut (t : Stamp) (s : Tri)               -- 6
  | writeRecovered (t : Stamp) (s : Tri) (p : Tri) -- 7
  | testArmed (t : Stamp) (s : Tri)             -- 8
  | testSign (t : Stamp) (s : Tri)              -- 9
  | readCounter (t : Stamp) (d : Tri)           -- 10
  | writeCounter (t : Stamp) (d : Tri) (c : Word) -- 11
  | readListener (t : Stamp) (c : Word)         -- 12
  | outputNotify (t : Stamp) (c : Word)         -- 13
  | readArm (t : Stamp)                         -- 14
  | writePut (t : Stamp) (a : Tri)              -- 15
  | disarm (t : Stamp)                          -- 16
  | stamp (t : Stamp)                           -- 17
  deriving DecidableEq, Repr

/-- A handler in flight: the mode whose handler it is (selected when it began, R92) and its micro-step index (R40). -/
structure Flight where
  mode : Mode
  next : Micro
  deriving DecidableEq, Repr

/-- What can happen next, one per step (R67, R233): an operation performed whole; the start of a handler; or one micro-step of the
handler of channel `x` in flight, with the level of the opposite pin and the clock as they are at that moment. -/
inductive Event
  | op (w : OpWord)
  | startHandler (x : Channel)
  | micro (x : Channel) (lvl : Bool) (t : Stamp)
  deriving DecidableEq, Repr

/-- The state: the parameters of R7; the fourteen elements of R20, in its order; the handlers in flight of the refinement (R40,
R232); the outputs (R41, R12); and the events still to come (R67). -/
structure State where
  cfg : Params
  counter : Word
  armA : Tri
  armB : Tri
  putA : Tri
  putB : Tri
  lastA : Stamp
  lastB : Stamp
  holdoff : Stamp
  lsn : Bool
  mode : Mode
  validA : Bool
  validB : Bool
  att : Bool
  hold : Bool
  flightA : Option Flight
  flightB : Option Flight
  notifies : List Word
  results : List Word
  outcome : OpOutcome
  input : List Event
  deriving DecidableEq, Repr

/-- The state after reset: the result of `CONSTRUCT mode=STD lvlA=0 lvlB=0 vA=1 vB=1` (R42, R220; the operands are log 1), with the
parameters of R7, nothing in flight, no output yet and no event waiting (log 2). -/
def State.reset : State :=
  { cfg := Params.spec
    counter := 0#32
    armA := .neg
    armB := .neg
    putA := .zero
    putB := .zero
    lastA := 0#32
    lastB := 0#32
    holdoff := 0#32
    lsn := false
    mode := resetMode
    validA := true
    validB := true
    att := true
    hold := false
    flightA := none
    flightB := none
    notifies := []
    results := []
    outcome := .done
    input := [] }

end Sys2Proof.Machine
end

