-- ==== Sys2Proof/Machine/Operands.lean ====
section
/-! DEFINITION. The values operations compute with: the `tri` operations of 00_scope.md R9 and 30_encoding.md R82, R83, the
level-to-sign conversion (R10, R81), the wrap-around arithmetic (R11, R21, R115), the `result` encodings (R94) and the beats (R62). -/

namespace Sys2Proof.Machine

open Sys2Proof

/-- `opp(X)`, the other channel (R11). -/
def opp : Channel → Channel
  | .a => .b
  | .b => .a

/-- `sign(1) = +1`, `sign(0) = -1` (R10, R81). -/
def sign (lvl : Bool) : Tri := if lvl then .pos else .neg

/-- `neg3` (R9, R83). -/
def neg3 : Tri → Tri
  | .neg => .pos
  | .zero => .zero
  | .pos => .neg

/-- The product of a `tri` and a sign (R9, R83): `a` for `+1`, `neg3(a)` for `-1`. A second factor 0 is no sign; the product is then 0. -/
def mulSign (a : Tri) : Tri → Tri
  | .pos => a
  | .neg => neg3 a
  | .zero => .zero

/-- The 2-bit code of a `tri` (R82). -/
def triCode : Tri → BitVec 2
  | .zero => 0b00#2
  | .pos => 0b01#2
  | .neg => 0b11#2

/-- A `tri` as a 32-bit two's complement number: its code sign-extended (R8, R82). -/
def triWord (d : Tri) : Word := (triCode d).signExtend 32

/-- `add32(c, d)`: wraps modulo 2^32 (R11, R21, R85). -/
def add32 (c : Word) (d : Tri) : Word := c + triWord d

/-- `elapsed(t, l) = (t - l) mod 2^W_T`, unsigned (R115). -/
def elapsed (t l : Stamp) : Stamp := t - l

/-- The direction of a channel-A count (R116, R141): `s` if `arm > 0`, else `neg3(s)`. -/
def directionA (arm s : Tri) : Tri := if arm = .pos then s else neg3 s

/-- The direction of a channel-B count (R116, R151): `s` if `arm < 0`, else `neg3(s)`. -/
def directionB (arm s : Tri) : Tri := if arm = .neg then s else neg3 s

/-- A Boolean as a `result`: zero-extended to 32 bits (R87). -/
def boolWord (v : Bool) : Word := (BitVec.ofBool v).zeroExtend 32

/-- `zext_32(counter[BUS_W*k + BUS_W - 1 : BUS_W*k])`, beat `k` of a counter value (R62, R164). -/
def beat (b : BusW) (k : Nat) (c : Word) : Word :=
  (c >>> (busBits b * k)) &&& BitVec.ofNat 32 (2 ^ busBits b - 1)

/-- `{beat[n-1], ..., beat[1], beat[0]}`, the accessor's reassembly, from a list that begins with beat 0 (R62). -/
def reassemble (b : BusW) : List Word → Word
  | [] => 0#32
  | v :: rest => v ||| (reassemble b rest <<< busBits b)

/-- `HOLDOFF_DEFAULT(MODE)` (R7, R42): 1000 in `DBL` and `QUAD`, 0 in `STD`. -/
def holdoffDefault : Mode → Stamp
  | .std => 0#32
  | .dbl => 1000#32
  | .quad => 1000#32

/-- The seeds of `arm[A]` and `arm[B]` at construction (R181): each from its own pin, or the two free values of `ARM_SEED`. -/
def seedArms (seed : ArmSeed) (lvlA lvlB : Bool) : Tri × Tri :=
  match seed with
  | .ownLevel => (sign lvlA, sign lvlB)
  | .given a b => (a, b)

end Sys2Proof.Machine
end

