-- ==== Sys2Proof/Machine/Flags.lean ====
section
/-! DEFINITION. The block has no flags (10_state.md R39). What stands here are the predicates R39 lists, "each computed from the
registers ... when needed and stored nowhere else". -/

namespace Sys2Proof.Machine

open Sys2Proof

/-- `holdoff != 0`: recovery is enabled (R28). -/
def recoveryEnabled (holdoff : Stamp) : Bool := holdoff != 0#32

/-- `elapsed(t, last) >= holdoff`, unsigned and not strict (R114). -/
def holdoffPassed (holdoff t last : Stamp) : Bool := decide (holdoff.toNat ≤ (elapsed t last).toNat)

/-- The three conditions of the recover step (R114): disarmed, recovery enabled, holdoff passed. -/
def recoveryDue (arm : Tri) (holdoff t last : Stamp) : Bool :=
  arm == .zero && recoveryEnabled holdoff && holdoffPassed holdoff t last

/-- `arm` as the count step sees it: `put` after a recovery, else `arm` itself (R114). -/
def recoveredArm (arm put : Tri) (holdoff t last : Stamp) : Tri :=
  if recoveryDue arm holdoff t last then put else arm

end Sys2Proof.Machine
end

