-- ==== Sys2Proof/Machine/Ops.lean ====
section
/-! DEFINITION. The named operations over the registers: the per-channel accessors, the outputs, the outcomes of 00_scope.md R12,
and the steps of 40_edge_classification.md that the edge handlers are built from, each once (R112 to R121).
The block takes no exception (60_exceptions.md R190): entering a handler saves and switches nothing (R202) and leaving it
restores nothing (R203), so the whole of entry is the gates of R121, here `edgeGate`. -/

namespace Sys2Proof.Machine

open Sys2Proof

/-- The answer of one meaning. -/
abbrev Result := Host.Outcome State Fault Refusal

/-! ## Per-channel registers -/

/-- `arm[X]` (R22, R23). -/
def State.arm (s : State) : Channel → Tri
  | .a => s.armA
  | .b => s.armB

/-- `arm[X] <- v`. -/
def State.setArm (s : State) (x : Channel) (v : Tri) : State :=
  match x with
  | .a => { s with armA := v }
  | .b => { s with armB := v }

/-- `put[X]` (R24, R25). -/
def State.put (s : State) : Channel → Tri
  | .a => s.putA
  | .b => s.putB

/-- `put[X] <- v`. -/
def State.setPut (s : State) (x : Channel) (v : Tri) : State :=
  match x with
  | .a => { s with putA := v }
  | .b => { s with putB := v }

/-- `last[X]` (R26, R27). -/
def State.last (s : State) : Channel → Stamp
  | .a => s.lastA
  | .b => s.lastB

/-- `last[X] <- t`. -/
def State.setLast (s : State) (x : Channel) (t : Stamp) : State :=
  match x with
  | .a => { s with lastA := t }
  | .b => { s with lastB := t }

/-- The handler of channel `X` in flight (R40, R232). -/
def State.flight (s : State) : Channel → Option Flight
  | .a => s.flightA
  | .b => s.flightB

/-- The handler of channel `X` begins, moves to its next micro-step, or ends. -/
def State.setFlight (s : State) (x : Channel) (f : Option Flight) : State :=
  match x with
  | .a => { s with flightA := f }
  | .b => { s with flightB := f }

/-- `counter <- c`. -/
def State.setCounter (s : State) (c : Word) : State := { s with counter := c }

/-! ## Outputs and outcomes -/

/-- `emit Notify(v)`: appends to the output stream (R11, R41). -/
def State.emitNotify (s : State) (v : Word) : State := { s with notifies := s.notifies ++ [v] }

/-- `result <- v`: the value returned to the foreground (R11, R94). -/
def State.emitResult (s : State) (v : Word) : State := { s with results := s.results ++ [v] }

/-- Outcome "done" (R12). -/
def done (s : State) : Result := .next { s with outcome := .done }

/-- Outcome "held" (R12): not performed now, no element changes; the environment may issue the operation again, with the `lvl` and `t` of
that later time, or lose it (R198, R199; log 3). -/
def held (s : State) : Result := .next { s with outcome := .held }

/-! ## The steps of an edge handler -/

/-- arm-other: `arm[opp(X)] <- s` (R113). -/
def armOther (x : Channel) (sg : Tri) (s : State) : State := s.setArm (opp x) sg

/-- recover (R114). -/
def recover (x : Channel) (t : Stamp) (s : State) : State :=
  if recoveryDue (s.arm x) s.holdoff t (s.last x) then s.setArm x (s.put x) else s

/-- count with direction `d`: the counter, then the `Notify` of its new value if a listener is installed (R116, R170). -/
def count (d : Tri) (s : State) : State :=
  if s.lsn then (s.setCounter (add32 s.counter d)).emitNotify (add32 s.counter d)
  else s.setCounter (add32 s.counter d)

/-- Standard mode's count rule for channel A: only when armed positive, in direction `s` (R116, R131). -/
def countWhenPositive (x : Channel) (sg : Tri) (s : State) : State :=
  if s.arm x = .pos then count sg s else s

/-- The count rule of channel A in `DBL` and `QUAD`: whenever armed (R116, R141). -/
def countWhenArmedA (sg : Tri) (s : State) : State :=
  if s.arm .a = .zero then s else count (directionA (s.arm .a) sg) s

/-- The count rule of channel B in `QUAD`: whenever armed, with the opposite sign convention (R116, R151). -/
def countWhenArmedB (sg : Tri) (s : State) : State :=
  if s.arm .b = .zero then s else count (directionB (s.arm .b) sg) s

/-- predict: `put[X] <- neg3(arm[X])` (R117). -/
def predict (x : Channel) (s : State) : State := s.setPut x (neg3 (s.arm x))

/-- disarm: `arm[X] <- 0` (R118). -/
def disarm (x : Channel) (s : State) : State := s.setArm x .zero

/-- stamp: `last[X] <- t` (R119). -/
def stamp (x : Channel) (t : Stamp) (s : State) : State := s.setLast x t

/-- The gates of R121 before a handler: held while `hold = 1`, ignored (done with no change, not even the stamp) while `att = 0`, else the
handler runs. Before them, the row must be the one `mode` selects (R92; log 4). -/
def edgeGate (m : Mode) (handler : State → State) (s : State) : Result :=
  if s.mode = m then
    if s.hold then held s
    else if s.att then done (handler s)
    else done s
  else .refused .handlerNotWired

/-- A foreground read: returns `v` and changes no element (R66). -/
def answer (v : Word) (s : State) : Result := done (s.emitResult v)

end Sys2Proof.Machine
end

