-- ==== Sys2Proof/Machine/Accessor.lean ====
section
/-! DEFINITION. The counter accessor and its critical section (44_counter_accessor.md R160 to R164). -/

namespace Sys2Proof.Machine

open Sys2Proof

/-- `READ_POSITION`: `result <- counter` (R160). -/
def execReadPosition (s : State) : Result := answer s.counter s

/-- `READ_BEAT k`: `result` is beat `k` of `counter` (R164); `k >= 32 / BUS_W` is a reserved encoding (R93). -/
def execReadBeat (k : BitVec 2) (s : State) : Result :=
  if k.toNat < beatCount s.cfg.busW then answer (beat s.cfg.busW k.toNat s.counter) s
  else .refused (.reservedWord .beatIndex)

/-- `SUSPEND`: `hold <- 1`, no nesting (R162). -/
def execSuspend (s : State) : Result := done { s with hold := true }

/-- `RESUME`: `hold <- 0` (R163). -/
def execResume (s : State) : Result := done { s with hold := false }

end Sys2Proof.Machine
end

