-- ==== Sys2Proof/Machine/Double.lean ====
section
/-! DEFINITION. The edge handlers of mode `DBL` (42_double.md R140, R141). -/

namespace Sys2Proof.Machine

open Sys2Proof

/-- The steps of R140: arm channel A, disarm, stamp. -/
def handlerBDbl (lvl : Bool) (t : Stamp) (s : State) : State :=
  stamp .b t (disarm .b (armOther .b (sign lvl) s))

/-- `EDGE_B.DBL` (R140). -/
def execEdgeBDbl (lvl : Bool) (t : Stamp) (s : State) : Result :=
  edgeGate .dbl (handlerBDbl lvl t) s

/-- The steps of R141: recover, count whenever armed, predict, disarm, stamp. -/
def handlerADbl (lvl : Bool) (t : Stamp) (s : State) : State :=
  stamp .a t (disarm .a (predict .a (countWhenArmedA (sign lvl) (recover .a t s))))

/-- `EDGE_A.DBL` (R141). -/
def execEdgeADbl (lvl : Bool) (t : Stamp) (s : State) : Result :=
  edgeGate .dbl (handlerADbl lvl t) s

end Sys2Proof.Machine
end

