-- ==== Sys2Proof/Machine/Lifecycle.lean ====
section
/-! DEFINITION. Construction (the block's reset), validity and detaching (46_lifecycle.md R180, R183, R185). -/

namespace Sys2Proof.Machine

open Sys2Proof

/-- The assignments of R180: all fourteen elements. A handler in flight in the refinement stays in flight (log 10), and the outputs
already seen stay seen (R41). -/
def constructed (m : Mode) (lvlA lvlB vA vB : Bool) (s : State) : State :=
  { s with
    mode := m
    validA := vA
    validB := vB
    counter := 0#32
    armA := (seedArms s.cfg.armSeed lvlA lvlB).1
    armB := (seedArms s.cfg.armSeed lvlA lvlB).2
    putA := .zero
    putB := .zero
    lastA := 0#32
    lastB := 0#32
    holdoff := holdoffDefault m
    lsn := false
    hold := false
    att := vA && vB }

/-- `CONSTRUCT m lvlA lvlB vA vB` (R180, R187). -/
def execConstruct (m : Mode) (lvlA lvlB vA vB : Bool) (s : State) : Result :=
  done (constructed m lvlA lvlB vA vB s)

/-- `IS_VALID`: `result <- zext_32(valid[A] AND valid[B])` (R183). -/
def execIsValid (s : State) : Result := answer (boolWord (s.validA && s.validB)) s

/-- `DETACH`: `att <- 0` and nothing else (R185). -/
def execDetach (s : State) : Result := done { s with att := false }

end Sys2Proof.Machine
end

