-- ==== Sys2Proof/Machine/Quadruple.lean ====
section
/-! DEFINITION. The edge handlers of mode `QUAD` (43_quadruple.md R150, R151). -/

namespace Sys2Proof.Machine

open Sys2Proof

/-- The steps of R150: arm channel B, then as R141. -/
def handlerAQuad (lvl : Bool) (t : Stamp) (s : State) : State :=
  stamp .a t (disarm .a (predict .a (countWhenArmedA (sign lvl) (recover .a t (armOther .a (sign lvl) s)))))

/-- `EDGE_A.QUAD` (R150). -/
def execEdgeAQuad (lvl : Bool) (t : Stamp) (s : State) : Result :=
  edgeGate .quad (handlerAQuad lvl t) s

/-- The steps of R151: arm channel A, recover, count whenever armed with the opposite sign, predict, disarm, stamp. -/
def handlerBQuad (lvl : Bool) (t : Stamp) (s : State) : State :=
  stamp .b t (disarm .b (predict .b (countWhenArmedB (sign lvl) (recover .b t (armOther .b (sign lvl) s)))))

/-- `EDGE_B.QUAD` (R151). -/
def execEdgeBQuad (lvl : Bool) (t : Stamp) (s : State) : Result :=
  edgeGate .quad (handlerBQuad lvl t) s

end Sys2Proof.Machine
end

