-- ==== Sys2Proof/Machine/Settings.lean ====
section
/-! DEFINITION. The configuration operations and `NOP` (45_listener_and_config.md R172, R174, R176). -/

namespace Sys2Proof.Machine

open Sys2Proof

/-- `NOP` (R176). -/
def execNop (s : State) : Result := done s

/-- `SET_LISTENER en`: `lsn <- en` (R172). -/
def execSetListener (en : Bool) (s : State) : Result := done { s with lsn := en }

/-- `SET_HOLDOFF imm`: `holdoff <- imm`, all bits in one step (R174). -/
def execSetHoldoff (imm : Stamp) (s : State) : Result := done { s with holdoff := imm }

end Sys2Proof.Machine
end

