-- ==== Sys2Proof/Machine/Standard.lean ====
section
/-! DEFINITION. The edge handlers of mode `STD` (41_standard.md R130, R131). -/

namespace Sys2Proof.Machine

open Sys2Proof

/-- The steps of R130: arm channel A, disarm, stamp. -/
def handlerBStd (lvl : Bool) (t : Stamp) (s : State) : State :=
  stamp .b t (disarm .b (armOther .b (sign lvl) s))

/-- `EDGE_B.STD` (R130). -/
def execEdgeBStd (lvl : Bool) (t : Stamp) (s : State) : Result :=
  edgeGate .std (handlerBStd lvl t) s

/-- The steps of R131: recover, count when armed positive, predict, disarm, stamp. -/
def handlerAStd (lvl : Bool) (t : Stamp) (s : State) : State :=
  stamp .a t (disarm .a (predict .a (countWhenPositive .a (sign lvl) (recover .a t s))))

/-- `EDGE_A.STD` (R131). -/
def execEdgeAStd (lvl : Bool) (t : Stamp) (s : State) : Result :=
  edgeGate .std (handlerAStd lvl t) s

end Sys2Proof.Machine
end

