-- ==== Sys2Proof/Machine/Dispatch.lean ====
section
/-! DEFINITION. One arm per operation (30_encoding.md R90, R92). -/
namespace Sys2Proof.Machine
open Sys2Proof
def exec (i : Instr) (s : State) : Host.Outcome State Fault Refusal :=
  match i with
  | .nop => Sys2Proof.Machine.execNop s
  | .edgeAStd lvl t => Sys2Proof.Machine.execEdgeAStd lvl t s
  | .edgeADbl lvl t => Sys2Proof.Machine.execEdgeADbl lvl t s
  | .edgeAQuad lvl t => Sys2Proof.Machine.execEdgeAQuad lvl t s
  | .edgeBStd lvl t => Sys2Proof.Machine.execEdgeBStd lvl t s
  | .edgeBDbl lvl t => Sys2Proof.Machine.execEdgeBDbl lvl t s
  | .edgeBQuad lvl t => Sys2Proof.Machine.execEdgeBQuad lvl t s
  | .setHoldoff imm => Sys2Proof.Machine.execSetHoldoff imm s
  | .setListener en => Sys2Proof.Machine.execSetListener en s
  | .readPosition => Sys2Proof.Machine.execReadPosition s
  | .isValid => Sys2Proof.Machine.execIsValid s
  | .construct m lvlA lvlB vA vB => Sys2Proof.Machine.execConstruct m lvlA lvlB vA vB s
  | .detach => Sys2Proof.Machine.execDetach s
  | .suspend => Sys2Proof.Machine.execSuspend s
  | .resume => Sys2Proof.Machine.execResume s
  | .readBeat k => Sys2Proof.Machine.execReadBeat k s
end Sys2Proof.Machine
end

