-- ==== Sys2Proof/Machine/Policy.lean ====
section
/-! DEFINITION. The one parameterised handler of 40_edge_classification.md R120: its policy table and its procedure. The meanings of the
six edge rows are written from their own rules (R130 to R151, which R120 calls the normative ones); that they are instances of this
procedure is a statement. The refinement selects its micro-steps by the same table. -/

namespace Sys2Proof.Machine

open Sys2Proof

/-- The four policy values of R120. -/
structure Policy where
  armsOther : Bool
  resolves : Bool
  countNeg : Bool
  conv : Tri
  deriving DecidableEq, Repr

/-- The policy table of R120. Where `resolves` is false `countNeg` and `conv` are unused. -/
def policy : Mode → Channel → Policy
  | .std, .a => { armsOther := false, resolves := true, countNeg := false, conv := .pos }
  | .std, .b => { armsOther := true, resolves := false, countNeg := false, conv := .pos }
  | .dbl, .a => { armsOther := false, resolves := true, countNeg := true, conv := .pos }
  | .dbl, .b => { armsOther := true, resolves := false, countNeg := false, conv := .pos }
  | .quad, .a => { armsOther := true, resolves := true, countNeg := true, conv := .pos }
  | .quad, .b => { armsOther := true, resolves := true, countNeg := true, conv := .neg }

/-- The resolve part of `EDGE(X, lvl, t)` in R120: recover, count, predict. -/
def edgeResolve (p : Policy) (x : Channel) (sg : Tri) (t : Stamp) (s : State) : State :=
  let r := recover x t s
  let counts := r.arm x = .pos ∨ (r.arm x = .neg ∧ p.countNeg)
  predict x (if counts then count (mulSign (mulSign (r.arm x) sg) p.conv) r else r)

/-- `EDGE(X, lvl, t)` of R120 after its gates. -/
def edgeProcedure (p : Policy) (x : Channel) (lvl : Bool) (t : Stamp) (s : State) : State :=
  let sg := sign lvl
  let s1 := if p.armsOther then armOther x sg s else s
  let s2 := if p.resolves then edgeResolve p x sg t s1 else s1
  stamp x t (disarm x s2)

end Sys2Proof.Machine
end

