-- ==== Sys2Proof/Machine/Refinement.lean ====
section
/-! DEFINITION. The non-atomic refinement (70_reset_and_hazards.md R232, R233), selected by `HANDLER_ATOMIC` = false (R7, R238): a handler
begins, performs one micro-step of the table of R232 at each `micro` event of its channel, and ends. -/

namespace Sys2Proof.Machine

open Sys2Proof

/-- Where a handler goes after its inputs, or after arming the other channel: to its test, or straight to the disarm (R232). -/
def afterArming (m : Mode) (x : Channel) (t : Stamp) (sg : Tri) : Micro :=
  if (policy m x).resolves then .testDisarmed t sg else .disarm t

/-- Micro-step 8: the test `> 0` of `EDGE_A.STD`, which has no micro-step 9 and counts in direction `s`, or the test `!= 0` (R232). -/
def afterTestArmed (m : Mode) (x : Channel) (t : Stamp) (sg arm : Tri) : Micro :=
  if (policy m x).countNeg then
    if arm = .zero then .readArm t else .testSign t sg
  else if arm = .pos then .readCounter t sg
  else .readArm t

/-- Micro-step 9: the direction from a second read of `arm[X]` (R232, R152). -/
def directionOf (x : Channel) (arm sg : Tri) : Tri :=
  match x with
  | .a => directionA arm sg
  | .b => directionB arm sg

/-- One micro-step of the handler of channel `x` in mode `m` (R232): the next micro-step, or none after the last, and the
state's registers and outputs after this one. `lvl` and `t` are the opposite pin and the clock now; only the two inputs use them. -/
def microEffect (m : Mode) (x : Channel) (lvl : Bool) (t : Stamp) (q : Micro) (s : State) : Option Micro × State :=
  match q with
  | .inputT => (some (.inputLvl t), s)
  | .inputLvl t0 =>
    (some (if (policy m x).armsOther then .armOther t0 (sign lvl) else afterArming m x t0 (sign lvl)), s)
  | .armOther t0 sg => (some (afterArming m x t0 sg), armOther x sg s)
  | .testDisarmed t0 sg => (some (if s.arm x = .zero then .testHoldoff t0 sg else .testArmed t0 sg), s)
  | .testHoldoff t0 sg => (some (if recoveryEnabled s.holdoff then .testElapsed t0 sg else .testArmed t0 sg), s)
  | .testElapsed t0 sg =>
    (some (if holdoffPassed s.holdoff t0 (s.last x) then .readPut t0 sg else .testArmed t0 sg), s)
  | .readPut t0 sg => (some (.writeRecovered t0 sg (s.put x)), s)
  | .writeRecovered t0 sg p => (some (.testArmed t0 sg), s.setArm x p)
  | .testArmed t0 sg => (some (afterTestArmed m x t0 sg (s.arm x)), s)
  | .testSign t0 sg => (some (.readCounter t0 (directionOf x (s.arm x) sg)), s)
  | .readCounter t0 d => (some (.writeCounter t0 d s.counter), s)
  | .writeCounter t0 d c => (some (.readListener t0 (add32 c d)), s.setCounter (add32 c d))
  | .readListener t0 c => (some (if s.lsn then .outputNotify t0 c else .readArm t0), s)
  | .outputNotify t0 c => (some (.readArm t0), s.emitNotify c)
  | .readArm t0 => (some (.writePut t0 (s.arm x)), s)
  | .writePut t0 a => (some (.disarm t0), s.setPut x (neg3 a))
  | .disarm t0 => (some (.stamp t0), disarm x s)
  | .stamp t0 => (none, stamp x t0 s)

/-- A handler of channel `x` begins. The gates of R121 are evaluated once, here, "before the first input" (R232); while `hold = 1` no handler begins
(R233), and none begins while one of its channel is in flight (R205). The handler is the one `mode` selects now (R92). With a handler of the channel
in flight and `att = 0`, after a `DETACH` or a `CONSTRUCT` in mid-flight, the event is held and not ignored: DESIGN CHOICE, log 14. -/
def startHandler (x : Channel) (s : State) : Result :=
  if s.cfg.handlerAtomic then .refused .handlersAreAtomic
  else if s.hold then held s
  else if (s.flight x).isSome then held s
  else if s.att then done (s.setFlight x (some { mode := s.mode, next := .inputT }))
  else done s

/-- One micro-step of the handler of channel `x` in flight (R233). -/
def microStep (x : Channel) (lvl : Bool) (t : Stamp) (s : State) : Result :=
  if s.cfg.handlerAtomic then .refused .handlersAreAtomic
  else
    match s.flight x with
    | none => .refused .noHandlerInFlight
    | some f =>
      let (q, s') := microEffect f.mode x lvl t f.next s
      done (s'.setFlight x (q.map fun n => { mode := f.mode, next := n }))

/-- An edge operation of a channel whose handler is in flight is held (R68, R205; 60_exceptions.md R199: "or still handling the previous edge of the
same channel"; 93 U16). It is held so even while `att = 0`, after a `DETACH` or a `CONSTRUCT` in mid-flight: DESIGN CHOICE, log 14. No foreground
operation ever is held (44_counter_accessor.md R166). With atomic handlers nothing is ever in flight. -/
def waitsForFlight (i : Instr) (s : State) : Bool :=
  match i with
  | .edgeAStd _ _ | .edgeADbl _ _ | .edgeAQuad _ _ => s.flightA.isSome
  | .edgeBStd _ _ | .edgeBDbl _ _ | .edgeBQuad _ _ => s.flightB.isSome
  | .nop | .setHoldoff _ | .setListener _ | .readPosition | .isValid | .construct _ _ _ _ _
  | .detach | .suspend | .resume | .readBeat _ => false

end Sys2Proof.Machine
end

