-- ==== Sys2Proof/Machine/Issue.lean ====
section
/-! DEFINITION. How the next event is taken from the input and performed (20_memory.md R67). The block has no program counter and fetches
nothing (10_state.md R38): the events are what the agents of 00_scope.md R6 do, in their one total order. -/

namespace Sys2Proof.Machine

open Sys2Proof

/-- A handler is in flight (R40). -/
def inFlight (s : State) : Bool := s.flightA.isSome || s.flightB.isSome

/-- The event is a `SUSPEND` and a handler is in flight: it "runs to its end first" (70_reset_and_hazards.md R233). -/
def suspendWaits (e : Event) (s : State) : Bool :=
  match e with
  | .op w => decide (decode s.mode s.cfg.busW w = .ok .suspend) && inFlight s
  | .startHandler _ | .micro _ _ _ => false

/-- The event is a micro-step of a handler in flight. -/
def advancesHandler (s : State) (e : Event) : Bool :=
  match e with
  | .micro x _ _ => (s.flight x).isSome
  | .op _ | .startHandler _ => false

/-- The first event that advances a handler in flight, and the events without it, in their order. -/
def takeAdvance (s : State) : List Event → Option (Event × List Event)
  | [] => none
  | e :: rest =>
    if advancesHandler s e then some (e, rest)
    else (takeAdvance s rest).map fun r => (r.1, e :: r.2)

/-- The next event and the state without it: the first event of the input; but while a `SUSPEND` stands there and a handler is in flight, the
handler's own next micro-step, the `SUSPEND` and all behind it keeping their places (R233). It is neither held nor lost, and acts as soon as
nothing is in flight (44_counter_accessor.md R166; log 8). -/
def takeEvent (s : State) : Option (Event × State) :=
  match s.input with
  | [] => none
  | e :: rest =>
    if suspendWaits e s then
      (takeAdvance s rest).map fun r => (r.1, { s with input := e :: r.2 })
    else some (e, { s with input := rest })

/-- An operation word is issued: decoded in the present `mode` (R92, R98), refused if reserved (R93), held if it is an edge of a channel whose
handler is in flight (R205; before the gate on `att`: DESIGN CHOICE, log 14), else performed. -/
def issueWord (w : OpWord) (s : State) : Result :=
  match decode s.mode s.cfg.busW w with
  | .error why => .refused (.reservedWord why)
  | .ok i => if waitsForFlight i s then held s else exec i s

/-- One event is performed. -/
def performEvent (e : Event) (s : State) : Result :=
  match e with
  | .op w => issueWord w s
  | .startHandler x => startHandler x s
  | .micro x lvl t => microStep x lvl t s

/-- No event can be performed now: the block "is idle between operations and loses nothing by idling" (60_exceptions.md R211). -/
def idle (s : State) : Result := .next s

/-- Issue an operation word next. -/
def issueNext (w : OpWord) (s : State) : State := { s with input := .op w :: s.input }

end Sys2Proof.Machine
end

