-- ==== Sys2Proof/Machine/Step.lean ====
section
/-! DEFINITION. One step of the block: the next event of the input (20_memory.md R67), or idling. -/

namespace Sys2Proof.Machine

open Sys2Proof

/-- One step. -/
def step (s : State) : Host.Outcome State Fault Refusal :=
  match takeEvent s with
  | none => idle s
  | some (e, s') => performEvent e s'

/-- `s` with the operation of the host's word `w` issued next (log 2). -/
def State.withFetchWord (s : State) (nbits w : Nat) : State := issueNext (wordOfTable nbits w) s

end Sys2Proof.Machine
end

