-- ==== Sys2Proof/Machine/Trace.lean ====
section
/-! DEFINITION. The trace syntax of 30_encoding.md R96 and the pseudo-operations of R97: operations as they are written, their words, the
ideal environment's expansions, and a reader of the textual lines. -/

namespace Sys2Proof.Machine

open Sys2Proof

/-- A line of R96 with its operands. An edge line names no mode. -/
inductive TraceOp
  | nop
  | edge (x : Channel) (lvl : Bool) (t : Stamp)
  | setHoldoff (imm : Stamp)
  | setListener (en : Bool)
  | readPosition
  | isValid
  | construct (m : Mode) (lvlA lvlB vA vB : Bool)
  | detach
  | suspend
  | resume
  | readBeat (k : BitVec 2)
  deriving DecidableEq, Repr

/-- The operation a line stands for on a machine in mode `m` (R92, R96). -/
def TraceOp.instr (m : Mode) : TraceOp → Instr
  | .nop => .nop
  | .edge x lvl t => edgeRow x m lvl t
  | .setHoldoff imm => .setHoldoff imm
  | .setListener en => .setListener en
  | .readPosition => .readPosition
  | .isValid => .isValid
  | .construct n lvlA lvlB vA vB => .construct n lvlA lvlB vA vB
  | .detach => .detach
  | .suspend => .suspend
  | .resume => .resume
  | .readBeat k => .readBeat k

/-- The operation word column of R96. -/
def TraceOp.word : TraceOp → OpWord
  | .nop => 0x0000000000#40
  | .edge .a lvl t => opWord 0x1#4 (0b000#3 ++ BitVec.ofBool lvl) t
  | .edge .b lvl t => opWord 0x2#4 (0b000#3 ++ BitVec.ofBool lvl) t
  | .setHoldoff imm => opWord 0x4#4 0x0#4 imm
  | .setListener en => opWord 0x5#4 (0b000#3 ++ BitVec.ofBool en) 0x00000000#32
  | .readPosition => 0x6000000000#40
  | .isValid => 0x7000000000#40
  | .construct m lvlA lvlB vA vB => opWord 0x8#4 (0b00#2 ++ modeCode m) (constructData lvlA lvlB vA vB)
  | .detach => 0x9000000000#40
  | .suspend => 0xA000000000#40
  | .resume => 0xB000000000#40
  | .readBeat k => opWord 0xC#4 (0b00#2 ++ k) 0x00000000#32

/-! ## The ideal environment (R97) -/

/-- `pinA`, `pinB`: environment variables, "not state of the block". -/
structure Pins where
  a : Bool
  b : Bool
  deriving DecidableEq, Repr

/-- The pseudo-operations of R97. -/
inductive Pseudo
  | pins (a b : Bool)
  | begin (m : Mode)
  | toggleA (t : Stamp)
  | toggleB (t : Stamp)
  | position
  deriving DecidableEq, Repr

/-- The accessor (R161): one `READ_POSITION` where `NATIVE_ATOMIC`, else `SUSPEND`, every beat from 0 up, `RESUME`. -/
def accessor (p : Params) : List TraceOp :=
  if p.nativeAtomic then [.readPosition]
  else [.suspend] ++ (List.range (beatCount p.busW)).map (fun k => .readBeat (BitVec.ofNat 2 k)) ++ [.resume]

/-- The expansion of a pseudo-operation (R97): the pins afterwards and the operations. -/
def Pseudo.expand (p : Params) (pins : Pins) : Pseudo → Pins × List TraceOp
  | .pins a b => ({ a := a, b := b }, [])
  | .begin m => (pins, [.construct m pins.a pins.b true true])
  | .toggleA t => ({ pins with a := !pins.a }, [.edge .a pins.b t])
  | .toggleB t => ({ pins with b := !pins.b }, [.edge .b pins.a t])
  | .position => (pins, accessor p)

/-- The expansion of a sequence of pseudo-operations. -/
def expandAll (p : Params) (pins : Pins) : List Pseudo → Pins × List TraceOp
  | [] => (pins, [])
  | q :: rest =>
    let r := q.expand p pins
    let r' := expandAll p r.1 rest
    (r'.1, r.2 ++ r'.2)

/-- Operations as events of the input. -/
def opEvents (ops : List TraceOp) : List Event := ops.map fun o => .op o.word

/-! ## The textual lines (R96)

"one per line, `;` starting a comment. Numbers are decimal or `0x` hexadecimal. An operand written `name=value` may appear in any order;
`vA` and `vB` default to 1 when omitted." Blanks and case: log 12. -/

/-- A line that carries something: an operation of R96 or a pseudo-operation of R97. -/
inductive TraceLine
  | op (o : TraceOp)
  | pseudo (q : Pseudo)
  deriving DecidableEq, Repr

/-- The words of a line before `;`, split at blanks and tabs; `cur` is the word being read, reversed. -/
def wordsOfLine (cur : List Char) : List Char → List (List Char)
  | [] => if cur.isEmpty then [] else [cur.reverse]
  | c :: rest =>
    if c = ';' then (if cur.isEmpty then [] else [cur.reverse])
    else if c = ' ' ∨ c = '\t' then
      (if cur.isEmpty then wordsOfLine [] rest else cur.reverse :: wordsOfLine [] rest)
    else wordsOfLine (c :: cur) rest

/-- The value of one digit. -/
def digitValue (c : Char) : Option Nat :=
  if '0' ≤ c ∧ c ≤ '9' then some (c.toNat - '0'.toNat)
  else if 'a' ≤ c ∧ c ≤ 'f' then some (c.toNat - 'a'.toNat + 10)
  else if 'A' ≤ c ∧ c ≤ 'F' then some (c.toNat - 'A'.toNat + 10)
  else none

/-- Digits of base `base` after the value `acc`. -/
def readDigits (base acc : Nat) : List Char → Option Nat
  | [] => some acc
  | c :: rest =>
    match digitValue c with
    | some d => if d < base then readDigits base (acc * base + d) rest else none
    | none => none

/-- A decimal or `0x` hexadecimal number. -/
def readNumber : List Char → Option Nat
  | [] => none
  | ['0', 'x'] => none
  | '0' :: 'x' :: rest => readDigits 16 0 rest
  | cs => readDigits 10 0 cs

/-- A number below 2^32. -/
def readStamp (cs : List Char) : Option Stamp :=
  match readNumber cs with
  | some n => if n < 2 ^ 32 then some (BitVec.ofNat 32 n) else none
  | none => none

/-- `0` or `1`. -/
def readBit (cs : List Char) : Option Bool :=
  match readNumber cs with
  | some 0 => some false
  | some 1 => some true
  | _ => none

/-- `STD`, `DBL` or `QUAD`. -/
def readMode (cs : List Char) : Option Mode :=
  if cs = "STD".toList then some .std
  else if cs = "DBL".toList then some .dbl
  else if cs = "QUAD".toList then some .quad
  else none

/-- `name=value` split at the first `=`; `cur` is the name being read, reversed. -/
def splitOperand (cur : List Char) : List Char → Option (List Char × List Char)
  | [] => none
  | c :: rest => if c = '=' then some (cur.reverse, rest) else splitOperand (c :: cur) rest

/-- Every operand of a line as a name and a value. -/
def readOperands : List (List Char) → Option (List (List Char × List Char))
  | [] => some []
  | w :: rest =>
    match splitOperand [] w, readOperands rest with
    | some p, some ps => if ps.any (fun q => q.1 == p.1) then none else some (p :: ps)
    | _, _ => none

/-- The value written for a name. -/
def operand (name : String) (ps : List (List Char × List Char)) : Option (List Char) :=
  (ps.find? fun p => p.1 == name.toList).map (·.2)

/-- Every operand's name is one of these. -/
def onlyOperands (names : List String) (ps : List (List Char × List Char)) : Bool :=
  ps.all fun p => names.any fun n => p.1 == n.toList

/-- The operands of an edge line. -/
def readEdge (x : Channel) (args : List (List Char)) : Option TraceLine := do
  let ps ← readOperands args
  if onlyOperands ["lvl", "t"] ps then
    let lvl ← (operand "lvl" ps).bind readBit
    let t ← (operand "t" ps).bind readStamp
    some (.op (.edge x lvl t))
  else none

/-- An operand that may be omitted and is then 1. -/
def readFlagOrOne (name : String) (ps : List (List Char × List Char)) : Option Bool :=
  match operand name ps with
  | none => some true
  | some v => readBit v

/-- The operands of a `CONSTRUCT` line. -/
def readConstruct (args : List (List Char)) : Option TraceLine := do
  let ps ← readOperands args
  if onlyOperands ["mode", "lvlA", "lvlB", "vA", "vB"] ps then
    let m ← (operand "mode" ps).bind readMode
    let lvlA ← (operand "lvlA" ps).bind readBit
    let lvlB ← (operand "lvlB" ps).bind readBit
    let vA ← readFlagOrOne "vA" ps
    let vB ← readFlagOrOne "vB" ps
    some (.op (.construct m lvlA lvlB vA vB))
  else none

/-- A `READ_BEAT` line's index: one the word's two bits can carry. -/
def readBeatIndex (cs : List Char) : Option TraceLine :=
  match readNumber cs with
  | some k => if k < 4 then some (.op (.readBeat (BitVec.ofNat 2 k))) else none
  | none => none

/-- The words of a line as an operation or a pseudo-operation. -/
def readWords : List (List Char) → Option TraceLine
  | [] => none
  | name :: args =>
    if name = "EDGE_A".toList then readEdge .a args
    else if name = "EDGE_B".toList then readEdge .b args
    else if name = "CONSTRUCT".toList then readConstruct args
    else
      match args with
      | [] =>
        if name = "NOP".toList then some (.op .nop)
        else if name = "READ_POSITION".toList then some (.op .readPosition)
        else if name = "IS_VALID".toList then some (.op .isValid)
        else if name = "DETACH".toList then some (.op .detach)
        else if name = "SUSPEND".toList then some (.op .suspend)
        else if name = "RESUME".toList then some (.op .resume)
        else if name = "POSITION".toList then some (.pseudo .position)
        else none
      | [v] =>
        if name = "SET_HOLDOFF".toList then (readStamp v).map fun n => .op (.setHoldoff n)
        else if name = "SET_LISTENER".toList then (readBit v).map fun e => .op (.setListener e)
        else if name = "READ_BEAT".toList then readBeatIndex v
        else if name = "BEGIN".toList then (readMode v).map fun m => .pseudo (.begin m)
        else if name = "TOGGLE_A".toList then (readStamp v).map fun t => .pseudo (.toggleA t)
        else if name = "TOGGLE_B".toList then (readStamp v).map fun t => .pseudo (.toggleB t)
        else none
      | [u, v] =>
        if name = "PINS".toList then
          (readBit u).bind fun a => (readBit v).map fun b => .pseudo (.pins a b)
        else none
      | _ => none

/-- One line of a trace, without its line break. A line that holds only blanks and a comment is no line of R96 and reads as nothing. -/
def readLine (line : String) : Option TraceLine := readWords (wordsOfLine [] line.toList)

end Sys2Proof.Machine
end

