-- ==== Sys2Proof/Safety.lean ====
section
/-! DEFINITION. What counts as a safe run, in the terms the statements use: running the whole input, the invariant of the model, the clock
contract of 00_scope.md R15, and the access matrix of 10_state.md R37. -/

namespace Sys2Proof.Safety

open Sys2Proof Sys2Proof.Machine

/-! ## Runs -/

/-- Every event of `evs` is performed from `s`, one step each; the run stops at the first refusal. -/
def runEvents (s : State) (evs : List Event) : Result :=
  Host.Core.run Sys2Proof.core evs.length { s with input := evs }

/-- The operations of `ops` are performed from `s`, one step each. -/
def runOps (s : State) (ops : List TraceOp) : Result := runEvents s (opEvents ops)

/-- Nothing is in flight: so it is at every step of a machine whose handlers are atomic (R40). -/
def Quiet (s : State) : Prop := s.flightA = none ∧ s.flightB = none

/-! ## The invariant -/

/-- What every step keeps. With atomic handlers nothing is in flight (R40); while `hold = 1` nothing is in flight either, so no micro-step falls into
a critical section (R233, R237); the handlers are attached only when both pins are valid (R32); outside `QUAD` nothing writes `put[B]` after
construction (R25); an invalid decoder has counted nothing (R184). -/
structure Inv (s : State) : Prop where
  quiet : s.cfg.handlerAtomic = true → Quiet s
  masked_quiet : s.hold = true → Quiet s
  attached_valid : s.att = true → s.validA = true ∧ s.validB = true
  putB_zero : s.cfg.handlerAtomic = true → s.mode ≠ .quad → s.putB = .zero
  invalid_zero : s.cfg.handlerAtomic = true → (s.validA && s.validB) = false → s.counter = 0#32

/-! ## The clock (R15) -/

/-- `t` is the low 32 bits of the microsecond count `n`. -/
def Shows (n : Nat) (t : Stamp) : Prop := t = BitVec.ofNat 32 n

/-! ## The access matrix (R37) -/

/-- A state element of R20 with a value for it. -/
inductive Element
  | counter (v : Word)
  | arm (x : Channel) (v : Tri)
  | put (x : Channel) (v : Tri)
  | last (x : Channel) (v : Stamp)
  | holdoff (v : Stamp)
  | lsn (v : Bool)
  | mode (v : Mode)
  | valid (x : Channel) (v : Bool)
  | att (v : Bool)
  | hold (v : Bool)
  deriving DecidableEq, Repr

/-- `s` with that element at that value. -/
def Element.write (s : State) : Element → State
  | .counter v => { s with counter := v }
  | .arm x v => s.setArm x v
  | .put x v => s.setPut x v
  | .last x v => s.setLast x v
  | .holdoff v => { s with holdoff := v }
  | .lsn v => { s with lsn := v }
  | .mode v => { s with mode := v }
  | .valid .a v => { s with validA := v }
  | .valid .b v => { s with validB := v }
  | .att v => { s with att := v }
  | .hold v => { s with hold := v }

/-- `s` has that element at that value. -/
def Element.holds (s : State) : Element → Prop
  | .counter v => s.counter = v
  | .arm x v => s.arm x = v
  | .put x v => s.put x = v
  | .last x v => s.last x = v
  | .holdoff v => s.holdoff = v
  | .lsn v => s.lsn = v
  | .mode v => s.mode = v
  | .valid .a v => s.validA = v
  | .valid .b v => s.validB = v
  | .att v => s.att = v
  | .hold v => s.hold = v

/-- The `r` entries of R37. -/
def reads : Instr → Element → Bool
  | .edgeAStd _ _, e | .edgeADbl _ _, e | .edgeAQuad _ _, e =>
    match e with
    | .counter _ | .arm .a _ | .put .a _ | .last .a _ | .holdoff _ | .lsn _ | .mode _ | .att _ | .hold _ => true
    | .arm .b _ | .put .b _ | .last .b _ | .valid _ _ => false
  | .edgeBStd _ _, e | .edgeBDbl _ _, e =>
    match e with
    | .mode _ | .att _ | .hold _ => true
    | .counter _ | .arm _ _ | .put _ _ | .last _ _ | .holdoff _ | .lsn _ | .valid _ _ => false
  | .edgeBQuad _ _, e =>
    match e with
    | .counter _ | .arm .b _ | .put .b _ | .last .b _ | .holdoff _ | .lsn _ | .mode _ | .att _ | .hold _ => true
    | .arm .a _ | .put .a _ | .last .a _ | .valid _ _ => false
  | .readPosition, e | .readBeat _, e =>
    match e with
    | .counter _ => true
    | _ => false
  | .isValid, e =>
    match e with
    | .valid _ _ => true
    | _ => false
  | .nop, _ | .setHoldoff _, _ | .setListener _, _ | .construct _ _ _ _ _, _ | .detach, _ | .suspend, _ | .resume, _ => false

/-- The `w` entries of R37. -/
def writes : Instr → Element → Bool
  | .edgeAStd _ _, e | .edgeADbl _ _, e =>
    match e with
    | .counter _ | .arm .a _ | .put .a _ | .last .a _ => true
    | _ => false
  | .edgeAQuad _ _, e =>
    match e with
    | .counter _ | .arm _ _ | .put .a _ | .last .a _ => true
    | _ => false
  | .edgeBStd _ _, e | .edgeBDbl _ _, e =>
    match e with
    | .arm _ _ | .last .b _ => true
    | _ => false
  | .edgeBQuad _ _, e =>
    match e with
    | .counter _ | .arm _ _ | .put .b _ | .last .b _ => true
    | _ => false
  | .setHoldoff _, e =>
    match e with
    | .holdoff _ => true
    | _ => false
  | .setListener _, e =>
    match e with
    | .lsn _ => true
    | _ => false
  | .detach, e =>
    match e with
    | .att _ => true
    | _ => false
  | .suspend, e | .resume, e =>
    match e with
    | .hold _ => true
    | _ => false
  | .construct _ _ _ _ _, _ => true
  | .nop, _ | .readPosition, _ | .isValid, _ | .readBeat _, _ => false

/-- The answer with that element at that value in its next state. -/
def Element.writeResult (e : Element) : Result → Result
  | .next t => .next (e.write t)
  | .fault f => .fault f
  | .refused r => .refused r

/-- An edge operation is performed when neither gate of R121 stops it; every other operation always is. -/
def Performed (i : Instr) (s : State) : Prop := i.edgeOf.isSome = true → s.hold = false ∧ s.att = true

end Sys2Proof.Safety
end

