-- ==== Sys2Proof/Certificates/Slice0/Obligations.lean ====
section
/-! DEFINITION. The statements for the provers. Each docstring names the rule of spec/ it rests on. -/

open Sys2Proof Sys2Proof.Machine Sys2Proof.Safety

/-! ## Encoding -/

/-- R88 to R93: no bit of an encoding is dropped. Every well-formed operation decodes from its own word. -/
def Obligations.DecodeOfEncodeIsTheOperation : Prop :=
  ∀ (m : Mode) (b : BusW) (i : Instr), i.wf m b = true → decode m b (encode i) = .ok i

/-- R88 to R93, the other direction: an accepted word is the encoding of a well-formed operation, so no two words are one operation. -/
def Obligations.AcceptedWordIsAnEncoding : Prop :=
  ∀ (m : Mode) (b : BusW) (w : OpWord) (i : Instr), decode m b w = .ok i → encode i = w ∧ i.wf m b = true

/-- R90, R93: the decoder accepts exactly the words that match a row of the opcode table and are neither a `CONSTRUCT` with `m = 0b11` nor
a `READ_BEAT` out of range; and the operation it answers is one of a matching row. -/
def Obligations.DecoderAcceptsExactlyTheOpcodeTable : Prop :=
  ∀ (m : Mode) (b : BusW) (w : OpWord),
    ((∃ i, decode m b w = .ok i) ↔
      (∃ row ∈ opcodeRows, matchesRow w row = true) ∧
      ¬ (opField w = 0x8#4 ∧ (auxField w).extractLsb' 0 2 = 0b11#2) ∧
      ¬ (opField w = 0xC#4 ∧ beatCount b ≤ ((auxField w).extractLsb' 0 2).toNat)) ∧
    (∀ i, decode m b w = .ok i → matchesRow w (tableRow i) = true)

/-- R93: a reserved word (its `op` is reserved, or a bit its format requires to be 0 is 1, so that it matches no row of R90; or `m = 0b11`; or
`k >= 32 / BUS_W`) is refused, in every state. A refused step has no next state, so nothing changes. -/
def Obligations.ReservedWordIsRefused : Prop :=
  ∀ (s : State) (w : OpWord) (rest : List Event), s.input = .op w :: rest →
    ((∀ row ∈ opcodeRows, matchesRow w row = false) ∨
      (opField w = 0x8#4 ∧ (auxField w).extractLsb' 0 2 = 0b11#2) ∨
      (opField w = 0xC#4 ∧ beatCount s.cfg.busW ≤ ((auxField w).extractLsb' 0 2).toNat)) →
    ∃ why, step s = .refused (.reservedWord why)

/-- Words written out in 30_encoding.md R96 and 95_test_vectors.md decode to the operations they stand for. -/
def Obligations.WrittenOutWordsDecode : Prop :=
  decode .std .b8 0x0000000000#40 = .ok .nop ∧
  decode .std .b8 0x11000000C8#40 = .ok (.edgeAStd true 200#32) ∧
  decode .dbl .b8 0x11000000C8#40 = .ok (.edgeADbl true 200#32) ∧
  decode .quad .b8 0x1000000FA0#40 = .ok (.edgeAQuad false 4000#32) ∧
  decode .std .b8 0x200000012C#40 = .ok (.edgeBStd false 300#32) ∧
  decode .dbl .b8 0x21000003E8#40 = .ok (.edgeBDbl true 1000#32) ∧
  decode .quad .b8 0x2000000BB8#40 = .ok (.edgeBQuad false 3000#32) ∧
  decode .std .b8 0x40000003E8#40 = .ok (.setHoldoff 1000#32) ∧
  decode .std .b8 0x5100000000#40 = .ok (.setListener true) ∧
  decode .std .b8 0x6000000000#40 = .ok .readPosition ∧
  decode .std .b8 0x7000000000#40 = .ok .isValid ∧
  decode .std .b8 0x820000000D#40 = .ok (.construct .quad true false true true) ∧
  decode .std .b8 0x8200000006#40 = .ok (.construct .quad false true true false) ∧
  decode .std .b8 0x9000000000#40 = .ok .detach ∧
  decode .std .b8 0xA000000000#40 = .ok .suspend ∧
  decode .std .b8 0xB000000000#40 = .ok .resume ∧
  decode .std .b8 0xC300000000#40 = .ok (.readBeat 3#2)

/-- R96: the word a line of the trace syntax stands for is the encoding of its operation. -/
def Obligations.TraceWordIsTheEncoding : Prop :=
  ∀ (m : Mode) (o : TraceOp), o.word = encode (o.instr m)

/-- R82, R83: negation and product of `tri` values, on their 2-bit codes. -/
def Obligations.TriNegationAndProduct : Prop :=
  (∀ v : Tri, triCode (neg3 v) = BitVec.ofBool ((triCode v).getLsbD 1 ^^ (triCode v).getLsbD 0) ++
      BitVec.ofBool ((triCode v).getLsbD 0)) ∧
  (triCode (neg3 .zero) = 0b00#2 ∧ triCode (neg3 .pos) = 0b11#2 ∧ triCode (neg3 .neg) = 0b01#2) ∧
  (∀ a : Tri, mulSign a .pos = a ∧ mulSign a .neg = neg3 a)

/-! ## One step -/

/-- R67, R92: when the next event is an operation word that decodes to `i`, the step removes it from the input and is `exec i`, unless it is an edge
of a channel whose handler is in flight, when it is held (whatever `att` is: the model's choice, log 14). A `SUSPEND` is performed so when nothing is
in flight; what happens before it otherwise is stated apart (`SuspendActsAfterTheHandlersInFlight`). Nothing ever waits while nothing is in flight.
The last clause: a word issued by `withFetchWord` is the very next operation (logs 2 and 3). -/
def Obligations.StepPerformsTheDecodedOperation : Prop :=
  (∀ (s : State) (w : OpWord) (rest : List Event) (i : Instr), s.input = .op w :: rest →
    decode s.mode s.cfg.busW w = .ok i →
      (waitsForFlight i s = false → (i = .suspend → Quiet s) → step s = exec i { s with input := rest }) ∧
      (waitsForFlight i s = true → step s = .next { s with input := rest, outcome := .held })) ∧
  (∀ (s : State) (i : Instr), Quiet s → waitsForFlight i s = false) ∧
  (∀ (s : State) (w : Nat) (i : Instr), Quiet s → decode s.mode s.cfg.busW (wordOfTable 40 w) = .ok i →
    step (s.withFetchWord 40 w) = exec i s)

/-- R190: no operation is fatal. Every well-formed operation answers a next state from every state, whatever that holds; and from every state that
respects R40, a step whose next event is an accepted operation word answers one too: the machine always goes on, and neither faults nor refuses. -/
def Obligations.NoOperationIsFatal : Prop :=
  (∀ (i : Instr) (s : State), i.wf s.mode s.cfg.busW = true → ∃ t, exec i s = .next t) ∧
  (∀ (s : State) (w : OpWord) (rest : List Event) (i : Instr), (s.cfg.handlerAtomic = true → Quiet s) →
    s.input = .op w :: rest → decode s.mode s.cfg.busW w = .ok i → ∃ t, step s = .next t)

/-- R195 on a machine with atomic handlers: of the operations, only a reserved word is refused (the list's other two entries, an operation from
listener context and one before the first `CONSTRUCT`, are no event and no state of the model). A micro-step event is no operation; it is
refused there under its own name (log 9). -/
def Obligations.OnlyReservedWordsAreRefused : Prop :=
  ∀ (s : State) (r : Refusal), s.cfg.handlerAtomic = true → Quiet s → step s = .refused r →
    (∃ w rest why, s.input = .op w :: rest ∧ decode s.mode s.cfg.busW w = .error why ∧ r = .reservedWord why) ∨
    (∃ e rest, s.input = e :: rest ∧ (∀ w, e ≠ .op w) ∧ r = .handlersAreAtomic)

/-- The model's choices of log entries 1 and 2: the state after reset is the result of `CONSTRUCT mode=STD lvlA=0 lvlB=0 vA=1 vB=1`, whose word is
0x800000000C, on the machine with the parameters of R7. -/
def Obligations.ResetIsTheResultOfAConstruct : Prop :=
  encode (.construct .std false false true true) = 0x800000000C#40 ∧
  ∀ s : State, s.cfg = Params.spec → Quiet s →
    exec (.construct .std false false true true) s =
      .next { State.reset with notifies := s.notifies, results := s.results, input := s.input }

/-- The invariant holds after reset. -/
def Obligations.ResetMeetsTheInvariant : Prop := Inv State.reset

/-- Every step keeps the invariant: with atomic handlers nothing is in flight (R40); while `hold = 1` nothing is in flight
(R233, R237); the handlers are attached only when both pins are valid (R32); outside `QUAD`
`put[B]` stays 0 (R25); an invalid decoder has counted nothing (R184). -/
def Obligations.StepKeepsTheInvariant : Prop :=
  ∀ s t : State, Inv s → step s = .next t → Inv t

/-- R41: an output already seen is never erased; one step adds at most one `Notify` and at most one `result` (kept as two lists: the model's choice,
log 6). The parameters of R7 never change (the model's choice, log 5). A step takes at most one event, a held one included (R67; the model's reading,
logs 2 and 3): either nothing at all changes, or the events lose one, which is the first of them or, while a `SUSPEND` waits, a micro-step of a
handler in flight (log 8). -/
def Obligations.OutputsOnlyGrow : Prop :=
  ∀ s t : State, step s = .next t →
    (t.notifies = s.notifies ∨ ∃ v, t.notifies = s.notifies ++ [v]) ∧
    (t.results = s.results ∨ ∃ v, t.results = s.results ++ [v]) ∧
    t.cfg = s.cfg ∧
    (t = s ∨ ∃ before e behind, s.input = before ++ e :: behind ∧ t.input = before ++ behind ∧
      (before = [] ∨ ∃ w later x lvl tm, before = .op w :: later ∧ decode s.mode s.cfg.busW w = .ok .suspend ∧
        e = .micro x lvl tm ∧ (s.flight x).isSome = true))

/-! ## The edge handlers -/

/-- R121: the two gates, in their order, before any step. While `hold = 1` an edge operation is held, nothing changing but the recorded outcome, and
a `RESUME` lets it through; while `att = 0` it is done with no change at all, not even the stamp; otherwise the handler `mode` selects runs. -/
def Obligations.EdgeGates : Prop :=
  ∀ (x : Channel) (lvl : Bool) (t : Stamp) (s : State),
    (s.hold = true → exec (edgeRow x s.mode lvl t) s = .next { s with outcome := .held } ∧
      exec .resume { s with outcome := .held } = .next { s with hold := false, outcome := .done }) ∧
    (s.hold = false → s.att = false → exec (edgeRow x s.mode lvl t) s = .next { s with outcome := .done }) ∧
    (s.hold = false → s.att = true →
      exec (edgeRow x s.mode lvl t) s = .next { edgeProcedure (policy s.mode x) x lvl t s with outcome := .done })

/-- R92: an edge row is no operation in another mode than its own; used there it is refused by name (the model's choice, log 4). -/
def Obligations.EdgeRowOfAnotherModeIsRefused : Prop :=
  ∀ (i : Instr) (x : Channel) (m : Mode) (s : State), i.edgeOf = some (x, m) → s.mode ≠ m →
    exec i s = .refused .handlerNotWired

/-- R130: `EDGE_B.STD` arms channel A with the level of pin A, clears `arm[B]`, stamps `last[B]`, never counts, and changes nothing else. -/
def Obligations.EdgeBStandard : Prop :=
  ∀ (lvl : Bool) (t : Stamp) (s : State), s.mode = .std →
    (∀ b : BusW, decode .std b (opWord 0x2#4 (0b000#3 ++ BitVec.ofBool lvl) t) = .ok (.edgeBStd lvl t)) ∧
    (s.hold = false → s.att = true →
      exec (.edgeBStd lvl t) s =
        .next { s with armA := if lvl then .pos else .neg, armB := .zero, lastB := t, outcome := .done }) ∧
    (s.hold = true → exec (.edgeBStd lvl t) s = .next { s with outcome := .held }) ∧
    (s.hold = false → s.att = false → exec (.edgeBStd lvl t) s = .next { s with outcome := .done })

/-- R131: `EDGE_A.STD`. `a` is `arm[A]` after the recover step. It counts only if `a > 0`, up when pin B is high and down when it is low, and
announces the new counter if a listener is installed; then it predicts, disarms and stamps. Nothing else changes. -/
def Obligations.EdgeAStandard : Prop :=
  ∀ (lvl : Bool) (t : Stamp) (s : State) (a : Tri), s.mode = .std →
    a = (if s.armA = .zero ∧ s.holdoff ≠ 0#32 ∧ s.holdoff.toNat ≤ (t - s.lastA).toNat then s.putA else s.armA) →
    (∀ b : BusW, decode .std b (opWord 0x1#4 (0b000#3 ++ BitVec.ofBool lvl) t) = .ok (.edgeAStd lvl t)) ∧
    (s.hold = false → s.att = true →
      let c := if a = .pos then (if lvl then s.counter + 1#32 else s.counter - 1#32) else s.counter
      exec (.edgeAStd lvl t) s =
        .next { s with
          counter := c
          notifies := if a = .pos ∧ s.lsn = true then s.notifies ++ [c] else s.notifies
          putA := neg3 a
          armA := .zero
          lastA := t
          outcome := .done }) ∧
    (s.hold = true → exec (.edgeAStd lvl t) s = .next { s with outcome := .held }) ∧
    (s.hold = false → s.att = false → exec (.edgeAStd lvl t) s = .next { s with outcome := .done })

/-- R140: `EDGE_B.DBL` does what `EDGE_B.STD` does. -/
def Obligations.EdgeBDouble : Prop :=
  ∀ (lvl : Bool) (t : Stamp) (s : State), s.mode = .dbl →
    (∀ b : BusW, decode .dbl b (opWord 0x2#4 (0b000#3 ++ BitVec.ofBool lvl) t) = .ok (.edgeBDbl lvl t)) ∧
    (s.hold = false → s.att = true →
      exec (.edgeBDbl lvl t) s =
        .next { s with armA := if lvl then .pos else .neg, armB := .zero, lastB := t, outcome := .done }) ∧
    (s.hold = true → exec (.edgeBDbl lvl t) s = .next { s with outcome := .held }) ∧
    (s.hold = false → s.att = false → exec (.edgeBDbl lvl t) s = .next { s with outcome := .done })

/-- R141: `EDGE_A.DBL`. `a` is `arm[A]` after the recover step. It counts whenever `a` is not 0, in direction `s = sign(lvl)` if `a > 0` and
`neg3(s)` if `a < 0`. -/
def Obligations.EdgeADouble : Prop :=
  ∀ (lvl : Bool) (t : Stamp) (s : State) (a : Tri), s.mode = .dbl →
    a = (if s.armA = .zero ∧ s.holdoff ≠ 0#32 ∧ s.holdoff.toNat ≤ (t - s.lastA).toNat then s.putA else s.armA) →
    (∀ b : BusW, decode .dbl b (opWord 0x1#4 (0b000#3 ++ BitVec.ofBool lvl) t) = .ok (.edgeADbl lvl t)) ∧
    (s.hold = false → s.att = true →
      let c := match a with
        | .pos => if lvl then s.counter + 1#32 else s.counter - 1#32
        | .neg => if lvl then s.counter - 1#32 else s.counter + 1#32
        | .zero => s.counter
      exec (.edgeADbl lvl t) s =
        .next { s with
          counter := c
          notifies := if a ≠ .zero ∧ s.lsn = true then s.notifies ++ [c] else s.notifies
          putA := neg3 a
          armA := .zero
          lastA := t
          outcome := .done }) ∧
    (s.hold = true → exec (.edgeADbl lvl t) s = .next { s with outcome := .held }) ∧
    (s.hold = false → s.att = false → exec (.edgeADbl lvl t) s = .next { s with outcome := .done })

/-- R150: `EDGE_A.QUAD` is `EDGE_A.DBL`'s rule and the arming of channel B. -/
def Obligations.EdgeAQuadruple : Prop :=
  ∀ (lvl : Bool) (t : Stamp) (s : State) (a : Tri), s.mode = .quad →
    a = (if s.armA = .zero ∧ s.holdoff ≠ 0#32 ∧ s.holdoff.toNat ≤ (t - s.lastA).toNat then s.putA else s.armA) →
    (∀ b : BusW, decode .quad b (opWord 0x1#4 (0b000#3 ++ BitVec.ofBool lvl) t) = .ok (.edgeAQuad lvl t)) ∧
    (s.hold = false → s.att = true →
      let c := match a with
        | .pos => if lvl then s.counter + 1#32 else s.counter - 1#32
        | .neg => if lvl then s.counter - 1#32 else s.counter + 1#32
        | .zero => s.counter
      exec (.edgeAQuad lvl t) s =
        .next { s with
          counter := c
          notifies := if a ≠ .zero ∧ s.lsn = true then s.notifies ++ [c] else s.notifies
          armB := if lvl then .pos else .neg
          putA := neg3 a
          armA := .zero
          lastA := t
          outcome := .done }) ∧
    (s.hold = true → exec (.edgeAQuad lvl t) s = .next { s with outcome := .held }) ∧
    (s.hold = false → s.att = false → exec (.edgeAQuad lvl t) s = .next { s with outcome := .done })

/-- R151: `EDGE_B.QUAD` arms channel A and resolves its own channel with the opposite sign convention. `a` is `arm[B]` after the recover step. -/
def Obligations.EdgeBQuadruple : Prop :=
  ∀ (lvl : Bool) (t : Stamp) (s : State) (a : Tri), s.mode = .quad →
    a = (if s.armB = .zero ∧ s.holdoff ≠ 0#32 ∧ s.holdoff.toNat ≤ (t - s.lastB).toNat then s.putB else s.armB) →
    (∀ b : BusW, decode .quad b (opWord 0x2#4 (0b000#3 ++ BitVec.ofBool lvl) t) = .ok (.edgeBQuad lvl t)) ∧
    (s.hold = false → s.att = true →
      let c := match a with
        | .pos => if lvl then s.counter - 1#32 else s.counter + 1#32
        | .neg => if lvl then s.counter + 1#32 else s.counter - 1#32
        | .zero => s.counter
      exec (.edgeBQuad lvl t) s =
        .next { s with
          counter := c
          notifies := if a ≠ .zero ∧ s.lsn = true then s.notifies ++ [c] else s.notifies
          armA := if lvl then .pos else .neg
          putB := neg3 a
          armB := .zero
          lastB := t
          outcome := .done }) ∧
    (s.hold = true → exec (.edgeBQuad lvl t) s = .next { s with outcome := .held }) ∧
    (s.hold = false → s.att = false → exec (.edgeBQuad lvl t) s = .next { s with outcome := .done })

/-- R120, whose table and procedure are `policy` and `edgeProcedure`: the six handlers, each written from its own rule, are that one procedure with
the policy of their mode and channel. -/
def Obligations.SixHandlersAreOneProcedure : Prop :=
  ∀ (lvl : Bool) (t : Stamp) (s : State),
    handlerAStd lvl t s = edgeProcedure (policy .std .a) .a lvl t s ∧
    handlerBStd lvl t s = edgeProcedure (policy .std .b) .b lvl t s ∧
    handlerADbl lvl t s = edgeProcedure (policy .dbl .a) .a lvl t s ∧
    handlerBDbl lvl t s = edgeProcedure (policy .dbl .b) .b lvl t s ∧
    handlerAQuad lvl t s = edgeProcedure (policy .quad .a) .a lvl t s ∧
    handlerBQuad lvl t s = edgeProcedure (policy .quad .b) .b lvl t s

/-- R12: the only held case is an edge operation while `hold = 1`; every other operation that is not refused is done. -/
def Obligations.OnlyMaskedEdgesAreHeld : Prop :=
  ∀ (i : Instr) (s t : State), exec i s = .next t → (t.outcome = .held ↔ i.edgeOf.isSome = true ∧ s.hold = true)

/-- R30, R31, R185: of all events, the micro-steps of the refinement included, only a `CONSTRUCT` changes `mode` or a validity flag, and only a
`CONSTRUCT` attaches detached handlers. -/
def Obligations.OnlyConstructChangesModeOrValidityOrReattaches : Prop :=
  ∀ s t : State, step s = .next t →
    (∃ w rest m lvlA lvlB vA vB, s.input = .op w :: rest ∧
      decode s.mode s.cfg.busW w = .ok (.construct m lvlA lvlB vA vB)) ∨
    (t.mode = s.mode ∧ t.validA = s.validA ∧ t.validB = s.validB ∧ (s.att = false → t.att = false))

/-- R35: `counter` is modified only inside an edge handler, and there by at most one; no other operation but `CONSTRUCT` writes it. -/
def Obligations.CounterMovesOnlyInHandlersByAtMostOne : Prop :=
  ∀ (i : Instr) (s t : State), exec i s = .next t →
    (i.edgeOf.isSome = true → t.counter = s.counter ∨ t.counter = s.counter + 1#32 ∨ t.counter = s.counter - 1#32) ∧
    (i.edgeOf = none → (∀ m lvlA lvlB vA vB, i ≠ .construct m lvlA lvlB vA vB) → t.counter = s.counter)

/-- R170, R178: exactly one `Notify` per count while a listener is installed, carrying the counter just after that count; none for an
operation that does not count, and none without a listener. -/
def Obligations.OneNotifyPerCount : Prop :=
  ∀ (i : Instr) (s t : State), exec i s = .next t →
    (t.counter = s.counter ∧ t.notifies = s.notifies) ∨
    (i.edgeOf.isSome = true ∧ (t.counter = s.counter + 1#32 ∨ t.counter = s.counter - 1#32) ∧
      t.notifies = if s.lsn then s.notifies ++ [t.counter] else s.notifies) ∨
    ((∃ m lvlA lvlB vA vB, i = .construct m lvlA lvlB vA vB) ∧ t.notifies = s.notifies)

/-- R36: after any performed `EDGE_X` with operand `t`, `last[X] = t`, whether or not it counted; one that is ignored because `att = 0` stamps
nothing. -/
def Obligations.PerformedHandlerStamps : Prop :=
  ∀ (x : Channel) (lvl : Bool) (t : Stamp) (s : State), s.hold = false →
    (s.att = true → ∃ u, exec (edgeRow x s.mode lvl t) s = .next u ∧ u.last x = t ∧ u.last (opp x) = s.last (opp x)) ∧
    (s.att = false → ∃ u, exec (edgeRow x s.mode lvl t) s = .next u ∧ u.last x = s.last x ∧ u.last (opp x) = s.last (opp x))

/-- R114: recovery. In a resolving handler whose channel is disarmed, with `holdoff` not 0 and at least `holdoff` elapsed since `last[X]` (a
difference equal to `holdoff` included), the edge does exactly what it would do with `arm[X]` at the predicted value `put[X]`; if one of the
three conditions fails it recovers nothing: it does exactly what it would do with no prediction (`put[X] = 0`), and what it would do with `holdoff` 0. -/
def Obligations.RecoveryTakesThePrediction : Prop :=
  ∀ (x : Channel) (lvl : Bool) (t : Stamp) (s : State), (policy s.mode x).resolves = true → s.hold = false → s.att = true →
    (s.arm x = .zero → s.holdoff ≠ 0#32 → s.holdoff.toNat ≤ (t - s.last x).toNat →
      ∃ u, exec (edgeRow x s.mode lvl t) s = .next u ∧
        exec (edgeRow x s.mode lvl t) (s.setArm x (s.put x)) = .next u) ∧
    (¬ (s.arm x = .zero ∧ s.holdoff ≠ 0#32 ∧ s.holdoff.toNat ≤ (t - s.last x).toNat) →
      ∃ u, exec (edgeRow x s.mode lvl t) s = .next u ∧
        exec (edgeRow x s.mode lvl t) (s.setPut x .zero) = .next u ∧
        exec (edgeRow x s.mode lvl t) { s with holdoff := 0#32 } = .next { u with holdoff := 0#32 })

/-- R175: `SET_HOLDOFF 0` disables recovery at once: after it a disarmed edge counts nothing, whatever the elapsed time. -/
def Obligations.HoldoffZeroDisablesRecovery : Prop :=
  ∀ s : State, ∃ t, exec (.setHoldoff 0#32) s = .next t ∧
    ∀ (x : Channel) (lvl : Bool) (tm : Stamp), t.arm x = .zero →
      ∃ u, exec (edgeRow x t.mode lvl tm) t = .next u ∧ u.counter = t.counter ∧ u.notifies = t.notifies

/-- R192, R229: an unpaired edge before the holdoff has passed counts nothing and erases the prediction, so that the next unpaired edge counts
nothing either, however late it comes. -/
def Obligations.BounceErasesThePrediction : Prop :=
  ∀ (x : Channel) (lvl lvl' : Bool) (t t' : Stamp) (s : State), (policy s.mode x).resolves = true →
    s.hold = false → s.att = true → s.arm x = .zero → (t - s.last x).toNat < s.holdoff.toNat →
    ∃ u v, exec (edgeRow x s.mode lvl t) s = .next u ∧ u.counter = s.counter ∧ u.notifies = s.notifies ∧ u.put x = .zero ∧
      exec (edgeRow x u.mode lvl' t') u = .next v ∧ v.counter = s.counter ∧ v.notifies = s.notifies

/-- R143, R152: the direction tables. `a` is `arm[X]` after the recover step of a channel that counts both polarities: `EDGE_A` in `DBL` and
`QUAD` counts up when `a` is positive and the opposite pin high or `a` negative and the pin low, `EDGE_B` in `QUAD` the other way round;
`a = 0` counts nothing; `put[X]` is `neg3(a)`. -/
def Obligations.DirectionTables : Prop :=
  ∀ (x : Channel) (lvl : Bool) (t : Stamp) (s : State) (a : Tri), (x = .a ∧ s.mode = .dbl ∨ s.mode = .quad) →
    s.hold = false → s.att = true → a = recoveredArm (s.arm x) (s.put x) s.holdoff t (s.last x) →
    ∃ u, exec (edgeRow x s.mode lvl t) s = .next u ∧ u.put x = neg3 a ∧
      (a = .zero → u.counter = s.counter) ∧
      (a = .pos → lvl = true → u.counter = if x = .a then s.counter + 1#32 else s.counter - 1#32) ∧
      (a = .pos → lvl = false → u.counter = if x = .a then s.counter - 1#32 else s.counter + 1#32) ∧
      (a = .neg → lvl = true → u.counter = if x = .a then s.counter - 1#32 else s.counter + 1#32) ∧
      (a = .neg → lvl = false → u.counter = if x = .a then s.counter + 1#32 else s.counter - 1#32)

/-- R115: `elapsed` is the difference of two clock values modulo 2^32: the true time while that is below 2^32 microseconds, aliased past it;
and the three worked values. -/
def Obligations.ElapsedIsTheTimeModuloTheClock : Prop :=
  (∀ (n k : Nat) (t l : Stamp), n ≤ k → Shows k t → Shows n l → (elapsed t l).toNat = (k - n) % 2 ^ 32) ∧
  elapsed 0x000002E8#32 0xFFFFFF00#32 = 0x000003E8#32 ∧
  elapsed 3000#32 2000#32 = 1000#32 ∧
  elapsed 4000#32 5000#32 = 0xFFFFFC18#32

/-- R21, R85: `add32` adds one or subtracts one as signed numbers except at the ends of the range, where it wraps. -/
def Obligations.CounterWrapsAtTheEnds : Prop :=
  (∀ c : Word, c ≠ 0x7FFFFFFF#32 → (add32 c .pos).toInt = c.toInt + 1) ∧
  (∀ c : Word, c ≠ 0x80000000#32 → (add32 c .neg).toInt = c.toInt - 1) ∧
  (add32 0x7FFFFFFF#32 .pos).toInt = -2147483648 ∧ (add32 0x80000000#32 .neg).toInt = 2147483647

/-! ## The foreground operations -/

/-- R176: `NOP` changes nothing. -/
def Obligations.NopChangesNothing : Prop :=
  (∀ (m : Mode) (b : BusW), decode m b 0x0000000000#40 = .ok .nop) ∧
  ∀ s : State, exec .nop s = .next { s with outcome := .done }

/-- R174: `SET_HOLDOFF imm` writes `holdoff` and nothing else, whatever `hold`, `att` and `mode` are. -/
def Obligations.SetHoldoffWritesHoldoff : Prop :=
  ∀ imm : Stamp, (∀ (m : Mode) (b : BusW), decode m b (opWord 0x4#4 0x0#4 imm) = .ok (.setHoldoff imm)) ∧
    ∀ s : State, exec (.setHoldoff imm) s = .next { s with holdoff := imm, outcome := .done }

/-- R172: `SET_LISTENER en` writes `lsn` and nothing else. -/
def Obligations.SetListenerWritesLsn : Prop :=
  ∀ en : Bool, (∀ (m : Mode) (b : BusW),
      decode m b (opWord 0x5#4 (0b000#3 ++ BitVec.ofBool en) 0x00000000#32) = .ok (.setListener en)) ∧
    ∀ s : State, exec (.setListener en) s = .next { s with lsn := en, outcome := .done }

/-- R160: `READ_POSITION` returns all 32 bits of `counter` and changes no element, whatever `hold`, `att` and the validity are; issued again it
returns the same value. -/
def Obligations.ReadPositionReturnsTheCounter : Prop :=
  (∀ (m : Mode) (b : BusW), decode m b 0x6000000000#40 = .ok .readPosition) ∧
  ∀ s : State, ∃ t, exec .readPosition s = .next t ∧
    t = { s with results := s.results ++ [s.counter], outcome := .done } ∧
    exec .readPosition t = .next { t with results := s.results ++ [s.counter, s.counter] }

/-- R62, R164: `READ_BEAT k` returns bits `BUS_W*k + BUS_W - 1` down to `BUS_W*k` of `counter`, zero-extended, and changes no element; an index
not below `32 / BUS_W` is a reserved encoding and is refused (R93); with `BUS_W = 32`, `READ_BEAT 0` is `READ_POSITION`. -/
def Obligations.ReadBeatReturnsASlice : Prop :=
  ∀ (k : BitVec 2) (s : State),
    (k.toNat < beatCount s.cfg.busW → ∃ v : Word,
      (∀ m : Mode, decode m s.cfg.busW (opWord 0xC#4 (0b00#2 ++ k) 0x00000000#32) = .ok (.readBeat k)) ∧
      exec (.readBeat k) s = .next { s with results := s.results ++ [v], outcome := .done } ∧
      ∀ n, v.getLsbD n = (decide (n < busBits s.cfg.busW) && s.counter.getLsbD (busBits s.cfg.busW * k.toNat + n))) ∧
    (beatCount s.cfg.busW ≤ k.toNat →
      (∀ m : Mode, decode m s.cfg.busW (opWord 0xC#4 (0b00#2 ++ k) 0x00000000#32) = .error .beatIndex) ∧
      exec (.readBeat k) s = .refused (.reservedWord .beatIndex)) ∧
    (s.cfg.busW = .b32 → exec (.readBeat 0#2) s = exec .readPosition s)

/-- R183: `IS_VALID` returns `valid[A] AND valid[B]` zero-extended, and changes no element; it does not read `att`. What it
returns is fixed at `CONSTRUCT`: no other operation changes it. -/
def Obligations.IsValidReturnsTheConjunction : Prop :=
  (∀ (m : Mode) (b : BusW), decode m b 0x7000000000#40 = .ok .isValid) ∧
  (∀ s : State, exec .isValid s =
    .next { s with
      results := s.results ++ [if s.validA = true ∧ s.validB = true then 1#32 else 0#32]
      outcome := .done }) ∧
  ∀ (i : Instr) (s t : State), (∀ m lvlA lvlB vA vB, i ≠ .construct m lvlA lvlB vA vB) → exec i s = .next t →
    t.validA = s.validA ∧ t.validB = s.validB

/-- R180: `CONSTRUCT` writes every element, whatever they held: the mode and the validity from its operands, each `arm` from the level of
its own pin, the default holdoff of the mode, everything else 0, and `att` only when both pins are valid. The outputs already seen stay. With
`ARM_SEED` at a given pair (R7, R181) the two seeds are that pair. The mode code `0b11` is refused. That handlers in
flight stay in flight is log 10. -/
def Obligations.ConstructWritesEveryElement : Prop :=
  (∀ (n : Mode) (b : BusW) (data : BitVec 32), data.extractLsb' 4 28 = 0#28 →
    (∀ m : Mode, decode n b (opWord 0x8#4 (0b00#2 ++ modeCode m) data) =
      .ok (.construct m (data.getLsbD 0) (data.getLsbD 1) (data.getLsbD 2) (data.getLsbD 3))) ∧
    decode n b (opWord 0x8#4 0b0011#4 data) = .error .modeCode) ∧
  ∀ (m : Mode) (lvlA lvlB vA vB : Bool) (s : State),
    exec (.construct m lvlA lvlB vA vB) s =
      .next {
        cfg := s.cfg
        counter := 0#32
        armA := match s.cfg.armSeed with
          | .ownLevel => if lvlA then .pos else .neg
          | .given a _ => a
        armB := match s.cfg.armSeed with
          | .ownLevel => if lvlB then .pos else .neg
          | .given _ b => b
        putA := .zero
        putB := .zero
        lastA := 0#32
        lastB := 0#32
        holdoff := if m = .std then 0#32 else 1000#32
        lsn := false
        mode := m
        validA := vA
        validB := vB
        att := vA && vB
        hold := false
        flightA := s.flightA
        flightB := s.flightB
        notifies := s.notifies
        results := s.results
        outcome := .done
        input := s.input }

/-- R185: `DETACH` clears `att` and nothing else; after it every edge operation of either channel that is not held is ignored, `READ_POSITION`
still returns `counter` and `IS_VALID` what it returned before. Nothing re-attaches the handlers except a `CONSTRUCT`. -/
def Obligations.DetachClearsAttOnly : Prop :=
  (∀ (m : Mode) (b : BusW), decode m b 0x9000000000#40 = .ok .detach) ∧
  (∀ (i : Instr) (s t : State), (∀ m lvlA lvlB vA vB, i ≠ .construct m lvlA lvlB vA vB) → s.att = false →
    exec i s = .next t → t.att = false) ∧
  ∀ s : State, ∃ t, exec .detach s = .next t ∧ t = { s with att := false, outcome := .done } ∧
    (∀ (x : Channel) (lvl : Bool) (tm : Stamp), s.hold = false → exec (edgeRow x t.mode lvl tm) t = .next t) ∧
    exec .readPosition t = .next { t with results := t.results ++ [s.counter] } ∧
    exec .isValid t = .next { t with results := t.results ++ [boolWord (s.validA && s.validB)] }

/-- R162: `SUSPEND` sets `hold` and nothing else, with no nesting: one `RESUME` ends any number of them; while it is set every
`EDGE_A` and `EDGE_B` is held and every foreground operation is still performed. -/
def Obligations.SuspendHoldsEdges : Prop :=
  (∀ (m : Mode) (b : BusW), decode m b 0xA000000000#40 = .ok .suspend) ∧
  ∀ s : State, ∃ t, exec .suspend s = .next t ∧ t = { s with hold := true, outcome := .done } ∧
    exec .suspend t = .next t ∧ exec .resume t = .next { s with hold := false, outcome := .done } ∧
    (∀ (x : Channel) (lvl : Bool) (tm : Stamp), exec (edgeRow x t.mode lvl tm) t = .next { t with outcome := .held }) ∧
    (∀ i : Instr, i.edgeOf = none → i.wf t.mode t.cfg.busW = true → ∃ u, exec i t = .next u ∧ u.outcome = .done)

/-- R163: `RESUME` clears `hold` and nothing else, and again changes nothing; an edge is then enabled, and where the handlers are attached the handler
of the present mode runs with the `lvl` and `t` the edge is issued with. -/
def Obligations.ResumeReleasesEdges : Prop :=
  (∀ (m : Mode) (b : BusW), decode m b 0xB000000000#40 = .ok .resume) ∧
  ∀ s : State, ∃ t, exec .resume s = .next t ∧ t = { s with hold := false, outcome := .done } ∧
    exec .resume t = .next t ∧
    ∀ (x : Channel) (lvl : Bool) (tm : Stamp), exec (edgeRow x t.mode lvl tm) t =
      .next (if s.att then { edgeProcedure (policy t.mode x) x lvl tm t with outcome := .done } else t)

/-- R66: no read has a side effect. `READ_POSITION`, `READ_BEAT` and `IS_VALID` leave every element as it was, and reading twice returns the same
value twice. -/
def Obligations.ReadsHaveNoSideEffect : Prop :=
  ∀ (i : Instr) (s t : State), (i = .readPosition ∨ i = .isValid ∨ ∃ k, i = .readBeat k) → exec i s = .next t →
    (∀ e : Element, e.holds s ↔ e.holds t) ∧ t.notifies = s.notifies ∧
    ∃ v, t.results = s.results ++ [v] ∧ ∃ u, exec i t = .next u ∧ u.results = s.results ++ [v, v]

/-- R37: the access matrix. An element an operation does not write is left unchanged by it; and an element it does not read has no influence on it:
with that element at another value, a performed operation gives the same answer if it writes the element, else the same answer with the element at
that value. -/
def Obligations.AccessMatrix : Prop :=
  ∀ (i : Instr) (e : Element) (s : State),
    (writes i e = false → ∀ t, exec i s = .next t → (e.holds s ↔ e.holds t)) ∧
    (reads i e = false → Performed i s →
      exec i (e.write s) = if writes i e then exec i s else e.writeResult (exec i s))

/-! ## Whole runs -/

/-- R184, R222: a decoder constructed with a pin that cannot deliver edges is inert. `CONSTRUCT` is done; whatever operations follow it, short of another
`CONSTRUCT`, `counter` stays 0, no `Notify` is emitted, the handlers stay detached and every read returns 0. -/
def Obligations.InvalidDecoderIsInert : Prop :=
  ∀ (m : Mode) (lvlA lvlB vA vB : Bool) (s : State) (ops : List TraceOp), (vA && vB) = false → Quiet s →
    (∀ o ∈ ops, (∀ n a b c d, o ≠ .construct n a b c d) ∧ (o.instr m).wf m s.cfg.busW = true) →
    ∃ u rs, runOps s (.construct m lvlA lvlB vA vB :: ops) = .next u ∧
      u.counter = 0#32 ∧ u.att = false ∧ u.notifies = s.notifies ∧
      u.results = s.results ++ rs ∧ ∀ r ∈ rs, r = 0#32

/-- R132, R142, R153: rotation with ideal edges (R97). From pins `p`, toggling channel `x` first and then the two channels in turn, each four edges
make the counter move by one in `STD`, two in `DBL` and four in `QUAD`, up in the forward sense and down in the reverse sense, for any number of
cycles, any timestamps and any holdoff; forward is toggling A first when the pins are equal and B first when they differ (R14). If the channel
toggled first resolves, it is armed with the level it is leaving (R154). -/
def Obligations.RotationCountsPerCycle : Prop :=
  ∀ (x : Channel) (p : Pins) (s : State) (ts : List (Stamp × Stamp × Stamp × Stamp)),
    s.hold = false → s.att = true → Quiet s →
    ((policy s.mode x).resolves = true → s.arm x = sign (match x with | .a => p.a | .b => p.b)) →
    let toggle : Channel → Stamp → Pseudo := fun y t => match y with | .a => .toggleA t | .b => .toggleB t
    let cycles := ts.flatMap fun q => [toggle x q.1, toggle (opp x) q.2.1, toggle x q.2.2.1, toggle (opp x) q.2.2.2]
    let perCycle := match s.mode with | .std => 1 | .dbl => 2 | .quad => 4
    ∃ u, runOps s (expandAll s.cfg p cycles).2 = .next u ∧ (expandAll s.cfg p cycles).1 = p ∧
      u.counter = if (x = .a ↔ p.a = p.b) then s.counter + BitVec.ofNat 32 (perCycle * ts.length)
        else s.counter - BitVec.ofNat 32 (perCycle * ts.length)

/-- R154: the arbiter's invariant with ideal edges, in whatever order the pins toggle. Just before an edge of a resolving channel, either it is disarmed
or it is armed with the level it is leaving. -/
def Obligations.ArmHoldsTheLevelBeingLeft : Prop :=
  ∀ (p : Pins) (s : State) (qs : List Pseudo), s.hold = false → s.att = true → Quiet s →
    (∀ q ∈ qs, ∃ t, q = .toggleA t ∨ q = .toggleB t) →
    (s.armA = .zero ∨ s.armA = sign p.a) → (s.mode = .quad → s.armB = .zero ∨ s.armB = sign p.b) →
    ∃ u, runOps s (expandAll s.cfg p qs).2 = .next u ∧
      (u.armA = .zero ∨ u.armA = sign (expandAll s.cfg p qs).1.a) ∧
      (s.mode = .quad → u.armB = .zero ∨ u.armB = sign (expandAll s.cfg p qs).1.b)

/-- R165, R167: the wrapped read. In `SUSPEND`, the beats from 0 up, `RESUME`, with any edges due at any point between, the beats reassemble to the value
`counter` held before, and nothing but `hold` (0 at the end) has changed: the edges were held, not performed. R161: so does the accessor of the
machine's own parameters, which is `READ_POSITION` alone where `NATIVE_ATOMIC` and the wrapped beats elsewhere; both strategies return `counter`. -/
def Obligations.WrappedReadReturnsTheCounter : Prop :=
  (∀ (s : State) (due : Nat → List (Channel × Bool × Stamp)), Quiet s →
    let edges : Nat → List TraceOp := fun k => (due k).map fun q => .edge q.1 q.2.1 q.2.2
    let n := beatCount s.cfg.busW
    let ops := [TraceOp.suspend] ++ (List.range n).flatMap (fun k => edges k ++ [.readBeat (BitVec.ofNat 2 k)]) ++
      edges n ++ [.resume]
    ∃ beats, runOps s ops =
        .next { s with results := s.results ++ beats, hold := false, outcome := .done, input := [] } ∧
      reassemble s.cfg.busW beats = s.counter) ∧
  (∀ s : State, Quiet s → s.cfg.nativeAtomic = true →
    runOps s (accessor s.cfg) = .next { s with results := s.results ++ [s.counter], outcome := .done, input := [] }) ∧
  (∀ s : State, Quiet s → s.cfg.nativeAtomic = false →
    (accessor s.cfg).length = beatCount s.cfg.busW + 2 ∧
    ∃ beats, runOps s (accessor s.cfg) =
        .next { s with results := s.results ++ beats, hold := false, outcome := .done, input := [] } ∧
      beats.length = beatCount s.cfg.busW ∧ reassemble s.cfg.busW beats = s.counter)

/-- R168: the hazard the wrapper exists for. Without `SUSPEND` the reassembled value can be one `counter` never held: 511 on the way from 255 to 256. -/
def Obligations.UnwrappedReadCanTear : Prop :=
  ∃ s u : State, Quiet s ∧ s.cfg.busW = .b8 ∧ s.counter = 255#32 ∧
    runOps s [.readBeat 0#2, .edge .a true 100#32, .readBeat 1#2, .readBeat 2#2, .readBeat 3#2] = .next u ∧
    u.counter = 256#32 ∧ u.results = s.results ++ [0xFF#32, 0x01#32, 0x00#32, 0x00#32] ∧
    reassemble .b8 [0xFF#32, 0x01#32, 0x00#32, 0x00#32] = 511#32

/-- R43: the reset value of `last[X]` cannot be observed. While `put[X] = 0`, as after `CONSTRUCT`, two states that differ only in `last[X]` give the same
`result` values, the same `Notify` stream, the same `counter` and the same refusals under every sequence of operations. -/
def Obligations.ResetStampIsUnobservable : Prop :=
  ∀ (x : Channel) (l : Stamp) (s : State) (ops : List TraceOp), Quiet s → s.put x = .zero →
    match runOps s ops, runOps (s.setLast x l) ops with
    | .next u, .next v => u.results = v.results ∧ u.notifies = v.notifies ∧ u.counter = v.counter
    | .refused r, .refused r' => r = r'
    | .next _, .refused _ => False
    | .refused _, .next _ => False
    | .fault _, _ => False
    | _, .fault _ => False

/-! ## The non-atomic refinement -/

/-- R233: every atomic edge is a run of the refinement. From a state where the handler of `x` may begin, it begins and takes its micro-steps one after the
other with the operands of the atomic operation; the state it ends in is the atomic operation's own. The grain of the micro-steps is log 7. -/
def Obligations.AtomicEdgeIsAHandlerRun : Prop :=
  ∀ (x : Channel) (lvl : Bool) (t : Stamp) (s : State), s.cfg.handlerAtomic = false → s.flight x = none →
    s.hold = false → s.att = true →
    ∃ n u, n ≤ 18 ∧ runEvents s (.startHandler x :: List.replicate n (.micro x lvl t)) = .next u ∧
      exec (edgeRow x s.mode lvl t) { s with input := [] } = .next u

/-- R233, R205: when a handler may begin, and what waits. On a machine of the refinement: while `hold = 1` no handler begins; none begins while one of
its channel is in flight, and neither is a whole edge operation of that channel performed, which is held; while `att = 0` the notification is ignored
(one of a channel in flight is held whatever `att` is: the model's choice, log 14); otherwise it begins before its first input, in the present mode.
No foreground operation is ever held (R166). A `SUSPEND` with a handler in flight stays first in the input, and nothing behind it is performed but the
next micro-step of a handler in flight; where none is there, the step changes nothing (log 8). -/
def Obligations.WhatWaitsForAHandler : Prop :=
  (∀ (x : Channel) (s : State) (rest : List Event), s.input = .startHandler x :: rest → s.cfg.handlerAtomic = false →
    (s.hold = true ∨ (s.flight x).isSome = true → step s = .next { s with input := rest, outcome := .held }) ∧
    (s.hold = false → s.flight x = none → s.att = false → step s = .next { s with input := rest, outcome := .done }) ∧
    (s.hold = false → s.flight x = none → s.att = true →
      step s = .next { s.setFlight x (some { mode := s.mode, next := .inputT }) with input := rest, outcome := .done })) ∧
  (∀ (x : Channel) (lvl : Bool) (t : Stamp) (s : State) (rest : List Event), (s.flight x).isSome = true →
    s.input = .op (encode (edgeRow x s.mode lvl t)) :: rest → step s = .next { s with input := rest, outcome := .held }) ∧
  (∀ (i : Instr) (s : State), i.edgeOf = none → waitsForFlight i s = false) ∧
  (∀ (y : Channel) (s : State) (rest : List Event), (s.flight y).isSome = true → s.input = .op 0xA000000000#40 :: rest →
    ((∀ (x : Channel) (lvl : Bool) (t : Stamp), (s.flight x).isSome = true → Event.micro x lvl t ∉ rest) → step s = .next s) ∧
    (∀ (before behind : List Event) (x : Channel) (lvl : Bool) (t : Stamp), rest = before ++ .micro x lvl t :: behind →
      (s.flight x).isSome = true →
      (∀ (z : Channel) (lvl' : Bool) (t' : Stamp), (s.flight z).isSome = true → Event.micro z lvl' t' ∉ before) →
      step s = microStep x lvl t { s with input := .op 0xA000000000#40 :: (before ++ behind) }))

/-- R233, R166: a handler in flight when `SUSPEND` is issued runs to its end first, then `SUSPEND` acts; it is never lost. First: if the micro-steps at
the head of the input take the machine to a state where nothing is in flight, then with a `SUSPEND` issued before them one step more takes it to
that state with `hold` set, the other events still to come. Second: a handler in flight ends within 18 of its micro-steps, whatever their operands,
and the other channel's handler is where it was; so a `SUSPEND` waits for a bounded number of micro-steps. (How it waits is log 8.) -/
def Obligations.SuspendActsAfterTheHandlersInFlight : Prop :=
  (∀ (s v : State) (ms : List (Channel × Bool × Stamp)) (rest : List Event),
    let micros := ms.map fun q => Event.micro q.1 q.2.1 q.2.2
    Host.Core.run core ms.length { s with input := micros ++ rest } = .next v → Quiet v →
      Host.Core.run core (ms.length + 1) { s with input := .op 0xA000000000#40 :: (micros ++ rest) } =
        .next { v with hold := true, outcome := .done }) ∧
  (∀ (x : Channel) (s : State) (inputs : Nat → Bool × Stamp) (rest : List Event), s.cfg.handlerAtomic = false →
    (s.flight x).isSome = true →
    ∃ n v, n ≤ 18 ∧
      Host.Core.run core n
        { s with input := (List.range n).map (fun k => Event.micro x (inputs k).1 (inputs k).2) ++ rest } = .next v ∧
      v.flight x = none ∧ v.flight (opp x) = s.flight (opp x) ∧ v.input = rest)

/-- R237: what the refinement keeps. A micro-step of channel `x` leaves the other channel's `put` and `last`, the handler in flight there and every
control and status element alone, emits no `result`, and writes `counter` only as micro-step 11, with the value read in micro-step 10 plus the
direction. -/
def Obligations.MicroStepFrame : Prop :=
  ∀ (x : Channel) (lvl : Bool) (t : Stamp) (s u : State), microStep x lvl t s = .next u →
    u.put (opp x) = s.put (opp x) ∧ u.last (opp x) = s.last (opp x) ∧ u.flight (opp x) = s.flight (opp x) ∧
    u.holdoff = s.holdoff ∧ u.lsn = s.lsn ∧ u.mode = s.mode ∧ u.validA = s.validA ∧ u.validB = s.validB ∧
    u.att = s.att ∧ u.hold = s.hold ∧ u.results = s.results ∧
    (u.counter = s.counter ∨ ∃ f tm d c, s.flight x = some f ∧ f.next = .writeCounter tm d c ∧ u.counter = add32 c d)

/-- R232, R237: a handler of channel B outside `QUAD` is five micro-steps or fewer and never counts, whatever runs between them: from its beginning its
micro-step index stays among the two inputs, the arming, the disarm and the stamp. -/
def Obligations.NonResolvingHandlerNeverCounts : Prop :=
  ∀ (lvl : Bool) (t : Stamp) (s u : State) (f : Flight), s.flightB = some f → f.mode ≠ .quad →
    (f.next = .inputT ∨ (∃ tm, f.next = .inputLvl tm) ∨ (∃ tm sg, f.next = .armOther tm sg) ∨ (∃ tm, f.next = .disarm tm) ∨
      (∃ tm, f.next = .stamp tm)) →
    microStep .b lvl t s = .next u →
      u.counter = s.counter ∧ u.notifies = s.notifies ∧
      (u.flightB = none ∨ ∃ g, u.flightB = some g ∧ g.mode = f.mode ∧
        ((∃ tm, g.next = .inputLvl tm) ∨ (∃ tm sg, g.next = .armOther tm sg) ∨ (∃ tm, g.next = .disarm tm) ∨
          (∃ tm, g.next = .stamp tm)))
end

