-- ==== Sys2Proof/Laws/Decode.lean ====
section
/-! SUPPORT. Laws of the operation word: its fields, their assembly, and what each format's decoder answers. -/

namespace Sys2Proof

/-! ## Fields -/

/-- The bits of `{op, aux, data}` (R88). -/
theorem getLsbD_opWord (op aux : BitVec 4) (d : BitVec 32) (i : Nat) :
    (opWord op aux d).getLsbD i =
      if i < 32 then d.getLsbD i else if i - 32 < 4 then aux.getLsbD (i - 32) else op.getLsbD (i - 32 - 4) := by
  exact (BitVec.getLsbD_append (x := op ++ aux) (y := d) (i := i)).trans (by rw [BitVec.getLsbD_append])

@[simp] theorem opField_opWord (op aux : BitVec 4) (d : BitVec 32) : opField (opWord op aux d) = op := by
  apply BitVec.eq_of_getLsbD_eq
  intro i hi
  rw [opField, BitVec.getLsbD_extractLsb', getLsbD_opWord, if_neg (by omega), if_neg (by omega),
    show 36 + i - 32 - 4 = i by omega]
  simp [hi]

@[simp] theorem auxField_opWord (op aux : BitVec 4) (d : BitVec 32) : auxField (opWord op aux d) = aux := by
  apply BitVec.eq_of_getLsbD_eq
  intro i hi
  rw [auxField, BitVec.getLsbD_extractLsb', getLsbD_opWord, if_neg (by omega), if_pos (by omega),
    show 32 + i - 32 = i by omega]
  simp [hi]

@[simp] theorem dataField_opWord (op aux : BitVec 4) (d : BitVec 32) : dataField (opWord op aux d) = d := by
  apply BitVec.eq_of_getLsbD_eq
  intro i hi
  rw [dataField, BitVec.getLsbD_extractLsb', getLsbD_opWord, if_pos (by omega), Nat.zero_add]
  simp [hi]

/-- A word is its three fields. -/
theorem opWord_fields (w : OpWord) : opWord (opField w) (auxField w) (dataField w) = w := by
  apply BitVec.eq_of_getLsbD_eq
  intro i hi
  simp only [getLsbD_opWord, opField, auxField, dataField, BitVec.getLsbD_extractLsb']
  split
  · next h => simp [h]
  · next h =>
    split
    · next h4 => simp [h4, show 32 + (i - 32) = i by omega]
    · next h4 => simp [show i - 32 - 4 < 4 by omega, show 36 + (i - 32 - 4) = i by omega]

/-- Two words with the same fields are the same word. -/
theorem opWord_ext {w v : OpWord} (h1 : opField w = opField v) (h2 : auxField w = auxField v)
    (h3 : dataField w = dataField v) : w = v := by
  rw [← opWord_fields w, ← opWord_fields v, h1, h2, h3]

/-- Masking works field by field. -/
theorem opWord_and (op aux op' aux' : BitVec 4) (d d' : BitVec 32) :
    opWord op aux d &&& opWord op' aux' d' = opWord (op &&& op') (aux &&& aux') (d &&& d') := by
  apply BitVec.eq_of_getLsbD_eq
  intro i _
  simp only [BitVec.getLsbD_and, getLsbD_opWord]
  split
  · rfl
  · split <;> rfl

/-! ## Codes -/

@[simp] theorem modeOfCode_modeCode (m : Mode) : modeOfCode (modeCode m) = some m := by cases m <;> rfl

theorem modeOfCode_eq_some (c : BitVec 2) (m : Mode) : modeOfCode c = some m ↔ c = modeCode m := by
  cases m <;> revert c <;> decide

@[simp] theorem auxOfBit_bit (v : Bool) : (auxOfBit v).getLsbD 0 = v := by cases v <;> rfl
@[simp] theorem auxOfBit_getElem (v : Bool) : (auxOfBit v)[0] = v := by cases v <;> rfl
@[simp] theorem auxOfBit_rest (v : Bool) : (auxOfBit v).extractLsb' 1 3 = 0#3 := by cases v <;> rfl
@[simp] theorem auxOfPair_pair (v : BitVec 2) : (auxOfPair v).extractLsb' 0 2 = v := by revert v; decide
@[simp] theorem auxOfPair_rest (v : BitVec 2) : (auxOfPair v).extractLsb' 2 2 = 0#2 := by revert v; decide

/-- A format `E` or `L` nibble with its named bit is all of `aux`. -/
theorem auxOfBit_of_rest (u : BitVec 4) (h : u.extractLsb' 1 3 = 0#3) : auxOfBit (u.getLsbD 0) = u := by
  revert u; decide

/-- A format `K` or `C` nibble with its named bits is all of `aux`. -/
theorem auxOfPair_of_rest (u : BitVec 4) (h : u.extractLsb' 2 2 = 0#2) : auxOfPair (u.extractLsb' 0 2) = u := by
  revert u; decide

/-- The flags of a `CONSTRUCT`'s `data`, and its unnamed bits. -/
theorem constructData_bits : ∀ p q r s : Bool, (constructData p q r s).getLsbD 0 = p ∧ (constructData p q r s).getLsbD 1 = q ∧
    (constructData p q r s).getLsbD 2 = r ∧ (constructData p q r s).getLsbD 3 = s ∧
    (constructData p q r s).extractLsb' 4 28 = 0#28 := by decide

/-- Construction flags are all of `data`. -/
theorem constructData_of_rest (d : BitVec 32) (h : d.extractLsb' 4 28 = 0#28) :
    constructData (d.getLsbD 0) (d.getLsbD 1) (d.getLsbD 2) (d.getLsbD 3) = d := by
  obtain ⟨h0, h1, h2, h3, hr⟩ := constructData_bits (d.getLsbD 0) (d.getLsbD 1) (d.getLsbD 2) (d.getLsbD 3)
  apply BitVec.eq_of_getLsbD_eq
  intro i hlt
  rcases Nat.lt_or_ge i 4 with h4 | h4
  · interval_cases i <;> assumption
  · have e := congrArg (fun v => v.getLsbD (i - 4)) (hr.trans h.symm)
    simpa [show i - 4 < 28 by omega, show 4 + (i - 4) = i by omega] using e

/-! ## What each format's decoder answers -/

theorem formatN_ok {w : OpWord} {i j : Instr} (h : formatN w i = .ok j) :
    j = i ∧ auxField w = 0#4 ∧ dataField w = 0#32 := by
  unfold formatN at h
  split at h
  · next hz => exact ⟨(Except.ok.inj h).symm, hz.1, hz.2⟩
  · cases h

theorem formatE_ok {w : OpWord} {row : Bool → Stamp → Instr} {j : Instr} (h : formatE w row = .ok j) :
    ∃ lvl, j = row lvl (dataField w) ∧ auxField w = auxOfBit lvl := by
  unfold formatE at h
  split at h
  · next hz => exact ⟨_, (Except.ok.inj h).symm, (auxOfBit_of_rest _ hz).symm⟩
  · cases h

theorem formatH_ok {w : OpWord} {j : Instr} (h : formatH w = .ok j) :
    j = .setHoldoff (dataField w) ∧ auxField w = 0#4 := by
  unfold formatH at h
  split at h
  · next hz => exact ⟨(Except.ok.inj h).symm, hz⟩
  · cases h

theorem formatL_ok {w : OpWord} {j : Instr} (h : formatL w = .ok j) :
    ∃ en, j = .setListener en ∧ auxField w = auxOfBit en ∧ dataField w = 0#32 := by
  unfold formatL at h
  split at h
  · next hz => exact ⟨_, (Except.ok.inj h).symm, (auxOfBit_of_rest _ hz.1).symm, hz.2⟩
  · cases h

theorem formatK_ok {b : BusW} {w : OpWord} {j : Instr} (h : formatK b w = .ok j) :
    ∃ k : BitVec 2, j = .readBeat k ∧ auxField w = auxOfPair k ∧ dataField w = 0#32 ∧ k.toNat < beatCount b := by
  unfold formatK at h
  split at h
  · next hz =>
    split at h
    · next hk => exact ⟨_, (Except.ok.inj h).symm, (auxOfPair_of_rest _ hz.1).symm, hz.2, hk⟩
    · cases h
  · cases h

theorem formatC_ok {w : OpWord} {j : Instr} (h : formatC w = .ok j) :
    ∃ m lvlA lvlB vA vB, j = .construct m lvlA lvlB vA vB ∧ auxField w = auxOfPair (modeCode m) ∧
      dataField w = constructData lvlA lvlB vA vB := by
  unfold formatC at h
  split at h
  · next hz =>
    split at h
    · next m hm =>
      refine ⟨m, _, _, _, _, (Except.ok.inj h).symm, ?_, (constructData_of_rest _ hz.2).symm⟩
      rw [← auxOfPair_of_rest _ hz.1, (modeOfCode_eq_some _ _).1 hm]
    · cases h
  · cases h

end Sys2Proof
end

