-- ==== Sys2Proof/Laws/State.lean ====
section
/-! SUPPORT. One lemma per field per named update of State, so that no later proof unfolds a record update. A per-channel register
is read through `arm`, `put`, `last`, `flight`; at a concrete channel both the read and the update become the plain field. -/

namespace Sys2Proof.Machine

open Sys2Proof

variable (s : State) (x y : Channel)

@[simp] theorem State.arm_a : s.arm .a = s.armA := rfl
@[simp] theorem State.arm_b : s.arm .b = s.armB := rfl
@[simp] theorem State.setArm_a (v : Tri) : s.setArm .a v = { s with armA := v } := rfl
@[simp] theorem State.setArm_b (v : Tri) : s.setArm .b v = { s with armB := v } := rfl
@[simp] theorem State.put_a : s.put .a = s.putA := rfl
@[simp] theorem State.put_b : s.put .b = s.putB := rfl
@[simp] theorem State.setPut_a (v : Tri) : s.setPut .a v = { s with putA := v } := rfl
@[simp] theorem State.setPut_b (v : Tri) : s.setPut .b v = { s with putB := v } := rfl
@[simp] theorem State.last_a : s.last .a = s.lastA := rfl
@[simp] theorem State.last_b : s.last .b = s.lastB := rfl
@[simp] theorem State.setLast_a (v : Stamp) : s.setLast .a v = { s with lastA := v } := rfl
@[simp] theorem State.setLast_b (v : Stamp) : s.setLast .b v = { s with lastB := v } := rfl
@[simp] theorem State.flight_a : s.flight .a = s.flightA := rfl
@[simp] theorem State.flight_b : s.flight .b = s.flightB := rfl
@[simp] theorem State.setFlight_a (v : Option Flight) : s.setFlight .a v = { s with flightA := v } := rfl
@[simp] theorem State.setFlight_b (v : Option Flight) : s.setFlight .b v = { s with flightB := v } := rfl

/-! ## `setArm` -/

@[simp] theorem State.setArm_arm_self (v : Tri) : (s.setArm x v).arm x = v := by cases x <;> rfl
@[simp] theorem State.setArm_arm_opp (v : Tri) : (s.setArm x v).arm (opp x) = s.arm (opp x) := by cases x <;> rfl
@[simp] theorem State.setArm_opp_arm (v : Tri) : (s.setArm (opp x) v).arm x = s.arm x := by cases x <;> rfl
@[simp] theorem State.setArm_put (v : Tri) : (s.setArm x v).put y = s.put y := by cases x <;> cases y <;> rfl
@[simp] theorem State.setArm_last (v : Tri) : (s.setArm x v).last y = s.last y := by cases x <;> cases y <;> rfl
@[simp] theorem State.setArm_flight (v : Tri) : (s.setArm x v).flight y = s.flight y := by cases x <;> cases y <;> rfl
@[simp] theorem State.setArm_cfg (v : Tri) : (s.setArm x v).cfg = s.cfg := by cases x <;> rfl
@[simp] theorem State.setArm_counter (v : Tri) : (s.setArm x v).counter = s.counter := by cases x <;> rfl
@[simp] theorem State.setArm_putA (v : Tri) : (s.setArm x v).putA = s.putA := by cases x <;> rfl
@[simp] theorem State.setArm_putB (v : Tri) : (s.setArm x v).putB = s.putB := by cases x <;> rfl
@[simp] theorem State.setArm_lastA (v : Tri) : (s.setArm x v).lastA = s.lastA := by cases x <;> rfl
@[simp] theorem State.setArm_lastB (v : Tri) : (s.setArm x v).lastB = s.lastB := by cases x <;> rfl
@[simp] theorem State.setArm_holdoff (v : Tri) : (s.setArm x v).holdoff = s.holdoff := by cases x <;> rfl
@[simp] theorem State.setArm_lsn (v : Tri) : (s.setArm x v).lsn = s.lsn := by cases x <;> rfl
@[simp] theorem State.setArm_mode (v : Tri) : (s.setArm x v).mode = s.mode := by cases x <;> rfl
@[simp] theorem State.setArm_validA (v : Tri) : (s.setArm x v).validA = s.validA := by cases x <;> rfl
@[simp] theorem State.setArm_validB (v : Tri) : (s.setArm x v).validB = s.validB := by cases x <;> rfl
@[simp] theorem State.setArm_att (v : Tri) : (s.setArm x v).att = s.att := by cases x <;> rfl
@[simp] theorem State.setArm_hold (v : Tri) : (s.setArm x v).hold = s.hold := by cases x <;> rfl
@[simp] theorem State.setArm_flightA (v : Tri) : (s.setArm x v).flightA = s.flightA := by cases x <;> rfl
@[simp] theorem State.setArm_flightB (v : Tri) : (s.setArm x v).flightB = s.flightB := by cases x <;> rfl
@[simp] theorem State.setArm_notifies (v : Tri) : (s.setArm x v).notifies = s.notifies := by cases x <;> rfl
@[simp] theorem State.setArm_results (v : Tri) : (s.setArm x v).results = s.results := by cases x <;> rfl
@[simp] theorem State.setArm_outcome (v : Tri) : (s.setArm x v).outcome = s.outcome := by cases x <;> rfl
@[simp] theorem State.setArm_input (v : Tri) : (s.setArm x v).input = s.input := by cases x <;> rfl

/-! ## `setPut` -/

@[simp] theorem State.setPut_put_self (v : Tri) : (s.setPut x v).put x = v := by cases x <;> rfl
@[simp] theorem State.setPut_put_opp (v : Tri) : (s.setPut x v).put (opp x) = s.put (opp x) := by cases x <;> rfl
@[simp] theorem State.setPut_opp_put (v : Tri) : (s.setPut (opp x) v).put x = s.put x := by cases x <;> rfl
@[simp] theorem State.setPut_arm (v : Tri) : (s.setPut x v).arm y = s.arm y := by cases x <;> cases y <;> rfl
@[simp] theorem State.setPut_last (v : Tri) : (s.setPut x v).last y = s.last y := by cases x <;> cases y <;> rfl
@[simp] theorem State.setPut_flight (v : Tri) : (s.setPut x v).flight y = s.flight y := by cases x <;> cases y <;> rfl
@[simp] theorem State.setPut_cfg (v : Tri) : (s.setPut x v).cfg = s.cfg := by cases x <;> rfl
@[simp] theorem State.setPut_counter (v : Tri) : (s.setPut x v).counter = s.counter := by cases x <;> rfl
@[simp] theorem State.setPut_armA (v : Tri) : (s.setPut x v).armA = s.armA := by cases x <;> rfl
@[simp] theorem State.setPut_armB (v : Tri) : (s.setPut x v).armB = s.armB := by cases x <;> rfl
@[simp] theorem State.setPut_lastA (v : Tri) : (s.setPut x v).lastA = s.lastA := by cases x <;> rfl
@[simp] theorem State.setPut_lastB (v : Tri) : (s.setPut x v).lastB = s.lastB := by cases x <;> rfl
@[simp] theorem State.setPut_holdoff (v : Tri) : (s.setPut x v).holdoff = s.holdoff := by cases x <;> rfl
@[simp] theorem State.setPut_lsn (v : Tri) : (s.setPut x v).lsn = s.lsn := by cases x <;> rfl
@[simp] theorem State.setPut_mode (v : Tri) : (s.setPut x v).mode = s.mode := by cases x <;> rfl
@[simp] theorem State.setPut_validA (v : Tri) : (s.setPut x v).validA = s.validA := by cases x <;> rfl
@[simp] theorem State.setPut_validB (v : Tri) : (s.setPut x v).validB = s.validB := by cases x <;> rfl
@[simp] theorem State.setPut_att (v : Tri) : (s.setPut x v).att = s.att := by cases x <;> rfl
@[simp] theorem State.setPut_hold (v : Tri) : (s.setPut x v).hold = s.hold := by cases x <;> rfl
@[simp] theorem State.setPut_flightA (v : Tri) : (s.setPut x v).flightA = s.flightA := by cases x <;> rfl
@[simp] theorem State.setPut_flightB (v : Tri) : (s.setPut x v).flightB = s.flightB := by cases x <;> rfl
@[simp] theorem State.setPut_notifies (v : Tri) : (s.setPut x v).notifies = s.notifies := by cases x <;> rfl
@[simp] theorem State.setPut_results (v : Tri) : (s.setPut x v).results = s.results := by cases x <;> rfl
@[simp] theorem State.setPut_outcome (v : Tri) : (s.setPut x v).outcome = s.outcome := by cases x <;> rfl
@[simp] theorem State.setPut_input (v : Tri) : (s.setPut x v).input = s.input := by cases x <;> rfl

/-! ## `setLast` -/

@[simp] theorem State.setLast_last_self (v : Stamp) : (s.setLast x v).last x = v := by cases x <;> rfl
@[simp] theorem State.setLast_last_opp (v : Stamp) : (s.setLast x v).last (opp x) = s.last (opp x) := by cases x <;> rfl
@[simp] theorem State.setLast_opp_last (v : Stamp) : (s.setLast (opp x) v).last x = s.last x := by cases x <;> rfl
@[simp] theorem State.setLast_arm (v : Stamp) : (s.setLast x v).arm y = s.arm y := by cases x <;> cases y <;> rfl
@[simp] theorem State.setLast_put (v : Stamp) : (s.setLast x v).put y = s.put y := by cases x <;> cases y <;> rfl
@[simp] theorem State.setLast_flight (v : Stamp) : (s.setLast x v).flight y = s.flight y := by cases x <;> cases y <;> rfl
@[simp] theorem State.setLast_cfg (v : Stamp) : (s.setLast x v).cfg = s.cfg := by cases x <;> rfl
@[simp] theorem State.setLast_counter (v : Stamp) : (s.setLast x v).counter = s.counter := by cases x <;> rfl
@[simp] theorem State.setLast_armA (v : Stamp) : (s.setLast x v).armA = s.armA := by cases x <;> rfl
@[simp] theorem State.setLast_armB (v : Stamp) : (s.setLast x v).armB = s.armB := by cases x <;> rfl
@[simp] theorem State.setLast_putA (v : Stamp) : (s.setLast x v).putA = s.putA := by cases x <;> rfl
@[simp] theorem State.setLast_putB (v : Stamp) : (s.setLast x v).putB = s.putB := by cases x <;> rfl
@[simp] theorem State.setLast_holdoff (v : Stamp) : (s.setLast x v).holdoff = s.holdoff := by cases x <;> rfl
@[simp] theorem State.setLast_lsn (v : Stamp) : (s.setLast x v).lsn = s.lsn := by cases x <;> rfl
@[simp] theorem State.setLast_mode (v : Stamp) : (s.setLast x v).mode = s.mode := by cases x <;> rfl
@[simp] theorem State.setLast_validA (v : Stamp) : (s.setLast x v).validA = s.validA := by cases x <;> rfl
@[simp] theorem State.setLast_validB (v : Stamp) : (s.setLast x v).validB = s.validB := by cases x <;> rfl
@[simp] theorem State.setLast_att (v : Stamp) : (s.setLast x v).att = s.att := by cases x <;> rfl
@[simp] theorem State.setLast_hold (v : Stamp) : (s.setLast x v).hold = s.hold := by cases x <;> rfl
@[simp] theorem State.setLast_flightA (v : Stamp) : (s.setLast x v).flightA = s.flightA := by cases x <;> rfl
@[simp] theorem State.setLast_flightB (v : Stamp) : (s.setLast x v).flightB = s.flightB := by cases x <;> rfl
@[simp] theorem State.setLast_notifies (v : Stamp) : (s.setLast x v).notifies = s.notifies := by cases x <;> rfl
@[simp] theorem State.setLast_results (v : Stamp) : (s.setLast x v).results = s.results := by cases x <;> rfl
@[simp] theorem State.setLast_outcome (v : Stamp) : (s.setLast x v).outcome = s.outcome := by cases x <;> rfl
@[simp] theorem State.setLast_input (v : Stamp) : (s.setLast x v).input = s.input := by cases x <;> rfl

/-! ## `setFlight` -/

@[simp] theorem State.setFlight_flight_self (v : Option Flight) : (s.setFlight x v).flight x = v := by cases x <;> rfl
@[simp] theorem State.setFlight_flight_opp (v : Option Flight) : (s.setFlight x v).flight (opp x) = s.flight (opp x) := by cases x <;> rfl
@[simp] theorem State.setFlight_opp_flight (v : Option Flight) : (s.setFlight (opp x) v).flight x = s.flight x := by cases x <;> rfl
@[simp] theorem State.setFlight_arm (v : Option Flight) : (s.setFlight x v).arm y = s.arm y := by cases x <;> cases y <;> rfl
@[simp] theorem State.setFlight_put (v : Option Flight) : (s.setFlight x v).put y = s.put y := by cases x <;> cases y <;> rfl
@[simp] theorem State.setFlight_last (v : Option Flight) : (s.setFlight x v).last y = s.last y := by cases x <;> cases y <;> rfl
@[simp] theorem State.setFlight_cfg (v : Option Flight) : (s.setFlight x v).cfg = s.cfg := by cases x <;> rfl
@[simp] theorem State.setFlight_counter (v : Option Flight) : (s.setFlight x v).counter = s.counter := by cases x <;> rfl
@[simp] theorem State.setFlight_armA (v : Option Flight) : (s.setFlight x v).armA = s.armA := by cases x <;> rfl
@[simp] theorem State.setFlight_armB (v : Option Flight) : (s.setFlight x v).armB = s.armB := by cases x <;> rfl
@[simp] theorem State.setFlight_putA (v : Option Flight) : (s.setFlight x v).putA = s.putA := by cases x <;> rfl
@[simp] theorem State.setFlight_putB (v : Option Flight) : (s.setFlight x v).putB = s.putB := by cases x <;> rfl
@[simp] theorem State.setFlight_lastA (v : Option Flight) : (s.setFlight x v).lastA = s.lastA := by cases x <;> rfl
@[simp] theorem State.setFlight_lastB (v : Option Flight) : (s.setFlight x v).lastB = s.lastB := by cases x <;> rfl
@[simp] theorem State.setFlight_holdoff (v : Option Flight) : (s.setFlight x v).holdoff = s.holdoff := by cases x <;> rfl
@[simp] theorem State.setFlight_lsn (v : Option Flight) : (s.setFlight x v).lsn = s.lsn := by cases x <;> rfl
@[simp] theorem State.setFlight_mode (v : Option Flight) : (s.setFlight x v).mode = s.mode := by cases x <;> rfl
@[simp] theorem State.setFlight_validA (v : Option Flight) : (s.setFlight x v).validA = s.validA := by cases x <;> rfl
@[simp] theorem State.setFlight_validB (v : Option Flight) : (s.setFlight x v).validB = s.validB := by cases x <;> rfl
@[simp] theorem State.setFlight_att (v : Option Flight) : (s.setFlight x v).att = s.att := by cases x <;> rfl
@[simp] theorem State.setFlight_hold (v : Option Flight) : (s.setFlight x v).hold = s.hold := by cases x <;> rfl
@[simp] theorem State.setFlight_notifies (v : Option Flight) : (s.setFlight x v).notifies = s.notifies := by cases x <;> rfl
@[simp] theorem State.setFlight_results (v : Option Flight) : (s.setFlight x v).results = s.results := by cases x <;> rfl
@[simp] theorem State.setFlight_outcome (v : Option Flight) : (s.setFlight x v).outcome = s.outcome := by cases x <;> rfl
@[simp] theorem State.setFlight_input (v : Option Flight) : (s.setFlight x v).input = s.input := by cases x <;> rfl

/-! ## `setCounter` -/

@[simp] theorem State.setCounter_arm (c : Word) : (s.setCounter c).arm y = s.arm y := by cases y <;> rfl
@[simp] theorem State.setCounter_put (c : Word) : (s.setCounter c).put y = s.put y := by cases y <;> rfl
@[simp] theorem State.setCounter_last (c : Word) : (s.setCounter c).last y = s.last y := by cases y <;> rfl
@[simp] theorem State.setCounter_flight (c : Word) : (s.setCounter c).flight y = s.flight y := by cases y <;> rfl
@[simp] theorem State.setCounter_cfg (c : Word) : (s.setCounter c).cfg = s.cfg := rfl
@[simp] theorem State.setCounter_counter (c : Word) : (s.setCounter c).counter = c := rfl
@[simp] theorem State.setCounter_armA (c : Word) : (s.setCounter c).armA = s.armA := rfl
@[simp] theorem State.setCounter_armB (c : Word) : (s.setCounter c).armB = s.armB := rfl
@[simp] theorem State.setCounter_putA (c : Word) : (s.setCounter c).putA = s.putA := rfl
@[simp] theorem State.setCounter_putB (c : Word) : (s.setCounter c).putB = s.putB := rfl
@[simp] theorem State.setCounter_lastA (c : Word) : (s.setCounter c).lastA = s.lastA := rfl
@[simp] theorem State.setCounter_lastB (c : Word) : (s.setCounter c).lastB = s.lastB := rfl
@[simp] theorem State.setCounter_holdoff (c : Word) : (s.setCounter c).holdoff = s.holdoff := rfl
@[simp] theorem State.setCounter_lsn (c : Word) : (s.setCounter c).lsn = s.lsn := rfl
@[simp] theorem State.setCounter_mode (c : Word) : (s.setCounter c).mode = s.mode := rfl
@[simp] theorem State.setCounter_validA (c : Word) : (s.setCounter c).validA = s.validA := rfl
@[simp] theorem State.setCounter_validB (c : Word) : (s.setCounter c).validB = s.validB := rfl
@[simp] theorem State.setCounter_att (c : Word) : (s.setCounter c).att = s.att := rfl
@[simp] theorem State.setCounter_hold (c : Word) : (s.setCounter c).hold = s.hold := rfl
@[simp] theorem State.setCounter_flightA (c : Word) : (s.setCounter c).flightA = s.flightA := rfl
@[simp] theorem State.setCounter_flightB (c : Word) : (s.setCounter c).flightB = s.flightB := rfl
@[simp] theorem State.setCounter_notifies (c : Word) : (s.setCounter c).notifies = s.notifies := rfl
@[simp] theorem State.setCounter_results (c : Word) : (s.setCounter c).results = s.results := rfl
@[simp] theorem State.setCounter_outcome (c : Word) : (s.setCounter c).outcome = s.outcome := rfl
@[simp] theorem State.setCounter_input (c : Word) : (s.setCounter c).input = s.input := rfl

/-! ## `emitNotify` -/

@[simp] theorem State.emitNotify_arm (c : Word) : (s.emitNotify c).arm y = s.arm y := by cases y <;> rfl
@[simp] theorem State.emitNotify_put (c : Word) : (s.emitNotify c).put y = s.put y := by cases y <;> rfl
@[simp] theorem State.emitNotify_last (c : Word) : (s.emitNotify c).last y = s.last y := by cases y <;> rfl
@[simp] theorem State.emitNotify_flight (c : Word) : (s.emitNotify c).flight y = s.flight y := by cases y <;> rfl
@[simp] theorem State.emitNotify_cfg (c : Word) : (s.emitNotify c).cfg = s.cfg := rfl
@[simp] theorem State.emitNotify_counter (c : Word) : (s.emitNotify c).counter = s.counter := rfl
@[simp] theorem State.emitNotify_armA (c : Word) : (s.emitNotify c).armA = s.armA := rfl
@[simp] theorem State.emitNotify_armB (c : Word) : (s.emitNotify c).armB = s.armB := rfl
@[simp] theorem State.emitNotify_putA (c : Word) : (s.emitNotify c).putA = s.putA := rfl
@[simp] theorem State.emitNotify_putB (c : Word) : (s.emitNotify c).putB = s.putB := rfl
@[simp] theorem State.emitNotify_lastA (c : Word) : (s.emitNotify c).lastA = s.lastA := rfl
@[simp] theorem State.emitNotify_lastB (c : Word) : (s.emitNotify c).lastB = s.lastB := rfl
@[simp] theorem State.emitNotify_holdoff (c : Word) : (s.emitNotify c).holdoff = s.holdoff := rfl
@[simp] theorem State.emitNotify_lsn (c : Word) : (s.emitNotify c).lsn = s.lsn := rfl
@[simp] theorem State.emitNotify_mode (c : Word) : (s.emitNotify c).mode = s.mode := rfl
@[simp] theorem State.emitNotify_validA (c : Word) : (s.emitNotify c).validA = s.validA := rfl
@[simp] theorem State.emitNotify_validB (c : Word) : (s.emitNotify c).validB = s.validB := rfl
@[simp] theorem State.emitNotify_att (c : Word) : (s.emitNotify c).att = s.att := rfl
@[simp] theorem State.emitNotify_hold (c : Word) : (s.emitNotify c).hold = s.hold := rfl
@[simp] theorem State.emitNotify_flightA (c : Word) : (s.emitNotify c).flightA = s.flightA := rfl
@[simp] theorem State.emitNotify_flightB (c : Word) : (s.emitNotify c).flightB = s.flightB := rfl
@[simp] theorem State.emitNotify_notifies (c : Word) : (s.emitNotify c).notifies = s.notifies ++ [c] := rfl
@[simp] theorem State.emitNotify_results (c : Word) : (s.emitNotify c).results = s.results := rfl
@[simp] theorem State.emitNotify_outcome (c : Word) : (s.emitNotify c).outcome = s.outcome := rfl
@[simp] theorem State.emitNotify_input (c : Word) : (s.emitNotify c).input = s.input := rfl

/-! ## `emitResult` -/

@[simp] theorem State.emitResult_arm (c : Word) : (s.emitResult c).arm y = s.arm y := by cases y <;> rfl
@[simp] theorem State.emitResult_put (c : Word) : (s.emitResult c).put y = s.put y := by cases y <;> rfl
@[simp] theorem State.emitResult_last (c : Word) : (s.emitResult c).last y = s.last y := by cases y <;> rfl
@[simp] theorem State.emitResult_flight (c : Word) : (s.emitResult c).flight y = s.flight y := by cases y <;> rfl
@[simp] theorem State.emitResult_cfg (c : Word) : (s.emitResult c).cfg = s.cfg := rfl
@[simp] theorem State.emitResult_counter (c : Word) : (s.emitResult c).counter = s.counter := rfl
@[simp] theorem State.emitResult_armA (c : Word) : (s.emitResult c).armA = s.armA := rfl
@[simp] theorem State.emitResult_armB (c : Word) : (s.emitResult c).armB = s.armB := rfl
@[simp] theorem State.emitResult_putA (c : Word) : (s.emitResult c).putA = s.putA := rfl
@[simp] theorem State.emitResult_putB (c : Word) : (s.emitResult c).putB = s.putB := rfl
@[simp] theorem State.emitResult_lastA (c : Word) : (s.emitResult c).lastA = s.lastA := rfl
@[simp] theorem State.emitResult_lastB (c : Word) : (s.emitResult c).lastB = s.lastB := rfl
@[simp] theorem State.emitResult_holdoff (c : Word) : (s.emitResult c).holdoff = s.holdoff := rfl
@[simp] theorem State.emitResult_lsn (c : Word) : (s.emitResult c).lsn = s.lsn := rfl
@[simp] theorem State.emitResult_mode (c : Word) : (s.emitResult c).mode = s.mode := rfl
@[simp] theorem State.emitResult_validA (c : Word) : (s.emitResult c).validA = s.validA := rfl
@[simp] theorem State.emitResult_validB (c : Word) : (s.emitResult c).validB = s.validB := rfl
@[simp] theorem State.emitResult_att (c : Word) : (s.emitResult c).att = s.att := rfl
@[simp] theorem State.emitResult_hold (c : Word) : (s.emitResult c).hold = s.hold := rfl
@[simp] theorem State.emitResult_flightA (c : Word) : (s.emitResult c).flightA = s.flightA := rfl
@[simp] theorem State.emitResult_flightB (c : Word) : (s.emitResult c).flightB = s.flightB := rfl
@[simp] theorem State.emitResult_notifies (c : Word) : (s.emitResult c).notifies = s.notifies := rfl
@[simp] theorem State.emitResult_results (c : Word) : (s.emitResult c).results = s.results ++ [c] := rfl
@[simp] theorem State.emitResult_outcome (c : Word) : (s.emitResult c).outcome = s.outcome := rfl
@[simp] theorem State.emitResult_input (c : Word) : (s.emitResult c).input = s.input := rfl

end Sys2Proof.Machine
end

