-- ==== Sys2Proof/Laws/Values.lean ====
section
/-! SUPPORT. Laws of the values of Machine/Operands.lean and of the predicates of Machine/Flags.lean. -/

namespace Sys2Proof.Machine

open Sys2Proof

/-! ## Channels and `tri` -/

@[simp] theorem opp_opp (x : Channel) : opp (opp x) = x := by cases x <;> rfl
@[simp] theorem opp_a : opp .a = .b := rfl
@[simp] theorem opp_b : opp .b = .a := rfl
theorem opp_ne (x : Channel) : opp x ≠ x := by cases x <;> decide

@[simp] theorem neg3_neg3 (v : Tri) : neg3 (neg3 v) = v := by cases v <;> rfl
@[simp] theorem neg3_zero : neg3 .zero = .zero := rfl
@[simp] theorem neg3_pos : neg3 .pos = .neg := rfl
@[simp] theorem neg3_neg : neg3 .neg = .pos := rfl
@[simp] theorem neg3_eq_zero (v : Tri) : neg3 v = .zero ↔ v = .zero := by cases v <;> decide

@[simp] theorem sign_true : sign true = .pos := rfl
@[simp] theorem sign_false : sign false = .neg := rfl

/-- `sign` never returns 0 (R10). -/
@[simp] theorem sign_ne_zero (lvl : Bool) : sign lvl ≠ .zero := by cases lvl <;> decide

@[simp] theorem sign_not (lvl : Bool) : sign (!lvl) = neg3 (sign lvl) := by cases lvl <;> rfl

/-- The two forms of the channel-A direction in R116's table agree. -/
theorem directionA_eq_mulSign (arm s : Tri) (ha : arm ≠ .zero) (hs : s ≠ .zero) :
    directionA arm s = mulSign arm s := by
  cases arm <;> cases s <;> first | rfl | contradiction

/-- The two forms of the channel-B direction in R116's table agree. -/
theorem directionB_eq_neg3_mulSign (arm s : Tri) (ha : arm ≠ .zero) (hs : s ≠ .zero) :
    directionB arm s = neg3 (mulSign arm s) := by
  cases arm <;> cases s <;> first | rfl | contradiction

@[simp] theorem triWord_zero : triWord .zero = 0#32 := by decide
@[simp] theorem triWord_pos : triWord .pos = 1#32 := by decide
@[simp] theorem triWord_neg : triWord .neg = 0xFFFFFFFF#32 := by decide

@[simp] theorem add32_zero (c : Word) : add32 c .zero = c := by simp [add32]
theorem add32_pos (c : Word) : add32 c .pos = c + 1#32 := by simp [add32]
theorem add32_neg (c : Word) : add32 c .neg = c - 1#32 := by simp [add32]; bv_omega

/-! ## Recovery -/

@[simp] theorem recoveryEnabled_zero : recoveryEnabled 0#32 = false := rfl

theorem recoveryDue_iff (arm : Tri) (h t l : Stamp) :
    recoveryDue arm h t l = true ↔ arm = .zero ∧ h ≠ 0#32 ∧ h.toNat ≤ (t - l).toNat := by
  unfold recoveryDue recoveryEnabled holdoffPassed elapsed
  rw [Bool.and_eq_true, Bool.and_eq_true, beq_iff_eq, bne_iff_ne, decide_eq_true_iff, and_assoc]

/-- `holdoff = 0` disables recovery (R114, R175). -/
@[simp] theorem recoveryDue_holdoff_zero (arm : Tri) (t l : Stamp) : recoveryDue arm 0#32 t l = false := by
  simp [recoveryDue]

/-- An armed channel is never recovered (R114, R241). -/
@[simp] theorem recoveryDue_armed (arm : Tri) (h t l : Stamp) (ha : arm ≠ .zero) : recoveryDue arm h t l = false := by
  cases arm <;> simp_all [recoveryDue]

@[simp] theorem recoveredArm_armed (arm put : Tri) (h t l : Stamp) (ha : arm ≠ .zero) :
    recoveredArm arm put h t l = arm := by
  simp [recoveredArm, ha]

/-- A recovery from `put = 0` changes nothing (R114). -/
@[simp] theorem recoveredArm_put_zero (arm : Tri) (h t l : Stamp) : recoveredArm arm .zero h t l = arm := by
  unfold recoveredArm
  split
  · next hd => exact ((recoveryDue_iff _ _ _ _).1 hd).1.symm
  · rfl

theorem recoveredArm_holdoff_zero (arm put : Tri) (t l : Stamp) : recoveredArm arm put 0#32 t l = arm := by
  simp [recoveredArm]

/-! ## Beats -/

@[simp] theorem beatCount_b8 : beatCount .b8 = 4 := rfl
@[simp] theorem beatCount_b16 : beatCount .b16 = 2 := rfl
@[simp] theorem beatCount_b32 : beatCount .b32 = 1 := rfl

theorem beatCount_le_four (b : BusW) : beatCount b ≤ 4 := by cases b <;> decide

/-- The beats of one value reassemble to it (R62, R165). -/
theorem reassemble_beats (b : BusW) (c : Word) :
    reassemble b ((List.range (beatCount b)).map fun k => beat b k c) = c := by
  apply BitVec.eq_of_getLsbD_eq
  intro i hi
  cases b <;>
    simp [reassemble, beat, busBits, List.range_succ, BitVec.getLsbD_or, BitVec.getLsbD_and, BitVec.getLsbD_shiftLeft,
      BitVec.getLsbD_ushiftRight] <;>
    interval_cases i <;> simp [BitVec.getLsbD, Nat.testBit]

end Sys2Proof.Machine
end

