-- ==== Sys2Proof/Laws/Ops.lean ====
section
/-! SUPPORT. One lemma per shared operation of Machine/Ops.lean that says everything it does, and for each edge handler its effect as one
record update. Later proofs cite these and do not unfold the steps. -/

namespace Sys2Proof.Machine

open Sys2Proof

/-! ## The outcomes -/

@[simp] theorem done_eq_next (s t : State) : done s = .next t ↔ t = { s with outcome := .done } := by
  simp [done, eq_comm]
@[simp] theorem held_eq_next (s t : State) : held s = .next t ↔ t = { s with outcome := .held } := by
  simp [held, eq_comm]
@[simp] theorem answer_eq_next (v : Word) (s t : State) :
    answer v s = .next t ↔ t = { s with results := s.results ++ [v], outcome := .done } := by
  simp [answer, State.emitResult]
@[simp] theorem done_ne_refused (s : State) (r : Refusal) : done s ≠ .refused r := by simp [done]
@[simp] theorem held_ne_refused (s : State) (r : Refusal) : held s ≠ .refused r := by simp [held]
@[simp] theorem answer_ne_refused (v : Word) (s : State) (r : Refusal) : answer v s ≠ .refused r := by simp [answer]

/-! ## The gates (R121) -/

theorem edgeGate_performed {m : Mode} {handler : State → State} {s : State} (hm : s.mode = m) (hh : s.hold = false)
    (ha : s.att = true) : edgeGate m handler s = .next { handler s with outcome := .done } := by
  simp [edgeGate, hm, hh, ha, done]

theorem edgeGate_held {m : Mode} {handler : State → State} {s : State} (hm : s.mode = m) (hh : s.hold = true) :
    edgeGate m handler s = .next { s with outcome := .held } := by
  simp [edgeGate, hm, hh, held]

theorem edgeGate_ignored {m : Mode} {handler : State → State} {s : State} (hm : s.mode = m) (hh : s.hold = false)
    (ha : s.att = false) : edgeGate m handler s = .next { s with outcome := .done } := by
  simp [edgeGate, hm, hh, ha, done]

theorem edgeGate_unwired {m : Mode} {handler : State → State} {s : State} (hm : s.mode ≠ m) :
    edgeGate m handler s = .refused .handlerNotWired := by
  simp [edgeGate, hm]

/-- Everything an edge row can answer. -/
theorem edgeGate_next {m : Mode} {handler : State → State} {s t : State} (h : edgeGate m handler s = .next t) :
    s.mode = m ∧
      ((s.hold = true ∧ t = { s with outcome := .held }) ∨
       (s.hold = false ∧ s.att = false ∧ t = { s with outcome := .done }) ∨
       (s.hold = false ∧ s.att = true ∧ t = { handler s with outcome := .done })) := by
  unfold edgeGate at h
  split at h
  · next hm =>
    refine ⟨hm, ?_⟩
    split at h
    · next hh => exact .inl ⟨hh, (held_eq_next _ _).1 h⟩
    · next hh =>
      have hf : s.hold = false := by simpa using hh
      split at h
      · next ha => exact .inr (.inr ⟨hf, ha, (done_eq_next _ _).1 h⟩)
      · next ha => exact .inr (.inl ⟨hf, by simpa using ha, (done_eq_next _ _).1 h⟩)
  · cases h

/-! ## The steps -/

/-- recover is one write of `arm[X]` (R114). -/
theorem recover_eq (x : Channel) (t : Stamp) (s : State) :
    recover x t s = s.setArm x (recoveredArm (s.arm x) (s.put x) s.holdoff t (s.last x)) := by
  unfold recover recoveredArm
  split
  · rfl
  · cases x <;> rfl

/-- count (R116): the counter and at most one `Notify`. -/
theorem count_eq (d : Tri) (s : State) :
    count d s = { s with
      counter := add32 s.counter d
      notifies := if s.lsn then s.notifies ++ [add32 s.counter d] else s.notifies } := by
  unfold count
  cases h : s.lsn <;> simp [State.setCounter, State.emitNotify, h]

/-! ## The handlers, each as one update -/

theorem handlerBStd_eq (lvl : Bool) (t : Stamp) (s : State) :
    handlerBStd lvl t s = { s with armA := sign lvl, armB := .zero, lastB := t } := rfl

theorem handlerBDbl_eq (lvl : Bool) (t : Stamp) (s : State) :
    handlerBDbl lvl t s = { s with armA := sign lvl, armB := .zero, lastB := t } := rfl

/-- R131. -/
theorem handlerAStd_eq (lvl : Bool) (t : Stamp) (s : State) :
    handlerAStd lvl t s =
      let r := recoveredArm s.armA s.putA s.holdoff t s.lastA
      { s with
        counter := if r = .pos then add32 s.counter (sign lvl) else s.counter
        notifies := if r = .pos ∧ s.lsn = true then s.notifies ++ [add32 s.counter (sign lvl)] else s.notifies
        putA := neg3 r
        armA := .zero
        lastA := t } := by
  simp only [handlerAStd, recover_eq, countWhenPositive, count_eq, predict, disarm, stamp, State.arm_a, State.put_a,
    State.last_a, State.setArm_a]
  cases recoveredArm s.armA s.putA s.holdoff t s.lastA <;> cases s.lsn <;> simp

/-- R141. -/
theorem handlerADbl_eq (lvl : Bool) (t : Stamp) (s : State) :
    handlerADbl lvl t s =
      let r := recoveredArm s.armA s.putA s.holdoff t s.lastA
      { s with
        counter := if r = .zero then s.counter else add32 s.counter (directionA r (sign lvl))
        notifies := if r ≠ .zero ∧ s.lsn = true then s.notifies ++ [add32 s.counter (directionA r (sign lvl))]
          else s.notifies
        putA := neg3 r
        armA := .zero
        lastA := t } := by
  simp only [handlerADbl, recover_eq, countWhenArmedA, count_eq, predict, disarm, stamp, State.arm_a, State.put_a,
    State.last_a, State.setArm_a]
  cases recoveredArm s.armA s.putA s.holdoff t s.lastA <;> cases s.lsn <;> simp

/-- R150: R141's effect and the arming of channel B. -/
theorem handlerAQuad_eq (lvl : Bool) (t : Stamp) (s : State) :
    handlerAQuad lvl t s = { handlerADbl lvl t s with armB := sign lvl } := by
  simp only [handlerAQuad, handlerADbl, recover_eq, countWhenArmedA, count_eq, predict, disarm, stamp, armOther, State.arm_a,
    State.put_a, State.last_a, State.setArm_a, State.setArm_b, opp_a]
  cases recoveredArm s.armA s.putA s.holdoff t s.lastA <;> cases s.lsn <;> simp

/-- R151. -/
theorem handlerBQuad_eq (lvl : Bool) (t : Stamp) (s : State) :
    handlerBQuad lvl t s =
      let r := recoveredArm s.armB s.putB s.holdoff t s.lastB
      { s with
        counter := if r = .zero then s.counter else add32 s.counter (directionB r (sign lvl))
        notifies := if r ≠ .zero ∧ s.lsn = true then s.notifies ++ [add32 s.counter (directionB r (sign lvl))]
          else s.notifies
        armA := sign lvl
        putB := neg3 r
        armB := .zero
        lastB := t } := by
  simp only [handlerBQuad, recover_eq, countWhenArmedB, count_eq, predict, disarm, stamp, armOther, State.arm_b,
    State.put_b, State.last_b, State.setArm_a, State.setArm_b, opp_b]
  cases recoveredArm s.armB s.putB s.holdoff t s.lastB <;> cases s.lsn <;> simp

/-! ## The handler of an edge, by channel and mode -/

/-- The steps of the handler of channel `x` in mode `m` (R92). -/
def handlerOf (x : Channel) (m : Mode) (lvl : Bool) (t : Stamp) (s : State) : State :=
  match x, m with
  | .a, .std => handlerAStd lvl t s
  | .a, .dbl => handlerADbl lvl t s
  | .a, .quad => handlerAQuad lvl t s
  | .b, .std => handlerBStd lvl t s
  | .b, .dbl => handlerBDbl lvl t s
  | .b, .quad => handlerBQuad lvl t s

/-- What no handler touches: the parameters, every control and status element, the results, the handlers in flight, the events. -/
theorem handlerOf_frame (x : Channel) (m : Mode) (lvl : Bool) (t : Stamp) (s : State) :
    let u := handlerOf x m lvl t s
    u.cfg = s.cfg ∧ (u.holdoff = s.holdoff ∧ u.lsn = s.lsn ∧ u.mode = s.mode) ∧ (u.validA = s.validA ∧ u.validB = s.validB) ∧
      u.att = s.att ∧ u.hold = s.hold ∧ u.results = s.results ∧ u.put (opp x) = s.put (opp x) ∧
      u.last (opp x) = s.last (opp x) ∧ u.flightA = s.flightA ∧ u.flightB = s.flightB ∧ u.input = s.input := by
  cases x <;> cases m <;>
    simp [handlerOf, handlerAStd_eq, handlerBStd_eq, handlerADbl_eq, handlerBDbl_eq, handlerAQuad_eq, handlerBQuad_eq]

/-- The meaning of an edge row is its handler behind the gates. -/
theorem exec_edgeRow (x : Channel) (m : Mode) (lvl : Bool) (t : Stamp) (s : State) :
    exec (edgeRow x m lvl t) s = edgeGate m (handlerOf x m lvl t) s := by
  cases x <;> cases m <;> rfl

/-- An edge row is the row of its channel and mode. -/
theorem edgeOf_eq_some {i : Instr} {x : Channel} {m : Mode} (h : i.edgeOf = some (x, m)) :
    ∃ lvl t, i = edgeRow x m lvl t := by
  cases i <;> simp [Instr.edgeOf] at h <;> obtain ⟨rfl, rfl⟩ := h <;> exact ⟨_, _, rfl⟩

@[simp] theorem edgeOf_edgeRow (x : Channel) (m : Mode) (lvl : Bool) (t : Stamp) :
    (edgeRow x m lvl t).edgeOf = some (x, m) := by
  cases x <;> cases m <;> rfl

end Sys2Proof.Machine
end

