-- ==== Sys2Proof/Laws/PerInstr.lean ====
section
/-! SUPPORT. Statements for every operation, one lemma per constructor. Family `TableRow`: the word the encoder writes is one its own row of
the opcode table matches (30_encoding.md R90). -/

namespace Sys2Proof.Laws.TableRow

open Sys2Proof

/-- The encoded word matches the operation's row. -/
def Statement (i : Instr) : Prop := matchesRow (encode i) (tableRow i) = true

/-- An edge word under the edge mask keeps only its opcode. -/
theorem edge_mask (op : BitVec 4) (lvl : Bool) (t : Stamp) :
    opWord op (auxOfBit lvl) t &&& 0xFE00000000#40 = opWord op 0#4 0#32 := by
  rw [show (0xFE00000000#40 : OpWord) = opWord 0xF#4 0xE#4 0#32 by decide, opWord_and,
    show ∀ l : Bool, auxOfBit l &&& 0xE#4 = 0#4 by decide, show ∀ o : BitVec 4, o &&& 0xF#4 = o by decide,
    BitVec.and_zero]

theorem nop : Statement .nop := by unfold Statement; decide
theorem edgeAStd (lvl : Bool) (t : Stamp) : Statement (.edgeAStd lvl t) := by
  simp only [Statement, encode, tableRow, matchesRow, edge_mask]; decide
theorem edgeADbl (lvl : Bool) (t : Stamp) : Statement (.edgeADbl lvl t) := by
  simp only [Statement, encode, tableRow, matchesRow, edge_mask]; decide
theorem edgeAQuad (lvl : Bool) (t : Stamp) : Statement (.edgeAQuad lvl t) := by
  simp only [Statement, encode, tableRow, matchesRow, edge_mask]; decide
theorem edgeBStd (lvl : Bool) (t : Stamp) : Statement (.edgeBStd lvl t) := by
  simp only [Statement, encode, tableRow, matchesRow, edge_mask]; decide
theorem edgeBDbl (lvl : Bool) (t : Stamp) : Statement (.edgeBDbl lvl t) := by
  simp only [Statement, encode, tableRow, matchesRow, edge_mask]; decide
theorem edgeBQuad (lvl : Bool) (t : Stamp) : Statement (.edgeBQuad lvl t) := by
  simp only [Statement, encode, tableRow, matchesRow, edge_mask]; decide
theorem setHoldoff (imm : Stamp) : Statement (.setHoldoff imm) := by
  simp only [Statement, encode, tableRow, matchesRow]
  rw [show (0xFF00000000#40 : OpWord) = opWord 0xF#4 0xF#4 0#32 by decide, opWord_and, BitVec.and_zero]
  decide
theorem setListener (en : Bool) : Statement (.setListener en) := by revert en; unfold Statement; decide
theorem readPosition : Statement .readPosition := by unfold Statement; decide
theorem isValid : Statement .isValid := by unfold Statement; decide
theorem construct (m : Mode) (lvlA lvlB vA vB : Bool) : Statement (.construct m lvlA lvlB vA vB) := by
  unfold Statement; cases m <;> revert lvlA lvlB vA vB <;> decide
theorem detach : Statement .detach := by unfold Statement; decide
theorem suspend : Statement .suspend := by unfold Statement; decide
theorem resume : Statement .resume := by unfold Statement; decide
theorem readBeat (k : BitVec 2) : Statement (.readBeat k) := by revert k; unfold Statement; decide

end Sys2Proof.Laws.TableRow
end

