-- ==== Sys2Proof/Laws/Step.lean ====
section
/-! SUPPORT. What one step can do, and how a run unfolds one event at a time. -/

namespace Sys2Proof.Machine

open Sys2Proof

/-! ## Which event is next -/

theorem inFlight_eq_false {s : State} : inFlight s = false ↔ Safety.Quiet s := by
  simp [inFlight, Safety.Quiet]

/-- What waits does not depend on the events. -/
@[simp] theorem suspendWaits_input (e : Event) (s : State) (evs : List Event) :
    suspendWaits e { s with input := evs } = suspendWaits e s := rfl

@[simp] theorem suspendWaits_startHandler (x : Channel) (s : State) : suspendWaits (.startHandler x) s = false := rfl
@[simp] theorem suspendWaits_micro (x : Channel) (lvl : Bool) (t : Stamp) (s : State) :
    suspendWaits (.micro x lvl t) s = false := rfl

/-- Nothing waits while nothing is in flight. -/
theorem suspendWaits_quiet (e : Event) {s : State} (h : Safety.Quiet s) : suspendWaits e s = false := by
  cases e <;> simp [suspendWaits, inFlight_eq_false.2 h]

/-- Only a `SUSPEND` waits, and only for a handler in flight. -/
theorem suspendWaits_iff {e : Event} {s : State} :
    suspendWaits e s = true ↔ ∃ w, e = .op w ∧ decode s.mode s.cfg.busW w = .ok .suspend ∧ ¬ Safety.Quiet s := by
  cases e <;> simp [suspendWaits, ← inFlight_eq_false]

/-- Where `takeAdvance` finds the event it answers. -/
theorem takeAdvance_eq_some {s : State} {evs rest : List Event} {e : Event} (h : takeAdvance s evs = some (e, rest)) :
    advancesHandler s e = true ∧
      ∃ before behind, evs = before ++ e :: behind ∧ rest = before ++ behind ∧ ∀ d ∈ before, advancesHandler s d = false := by
  induction evs generalizing rest with
  | nil => cases h
  | cons d evs ih =>
    simp only [takeAdvance] at h
    split at h
    · next hd => cases h; exact ⟨hd, [], _, rfl, rfl, by simp⟩
    · next hd =>
      obtain ⟨⟨e', rest'⟩, hr, heq⟩ := Option.map_eq_some_iff.1 h
      cases heq
      obtain ⟨he, before, behind, rfl, rfl, hb⟩ := ih hr
      exact ⟨he, d :: before, behind, rfl, rfl, by simpa [hd] using hb⟩

/-- The first event that advances a handler is the one taken. -/
theorem takeAdvance_append {s : State} {before behind : List Event} {e : Event} (he : advancesHandler s e = true)
    (hb : ∀ d ∈ before, advancesHandler s d = false) :
    takeAdvance s (before ++ e :: behind) = some (e, before ++ behind) := by
  induction before with
  | nil => simp [takeAdvance, he]
  | cons d before ih =>
    have hd : advancesHandler s d = false := hb d (by simp)
    simp [takeAdvance, hd, ih fun d' h' => hb d' (by simp [h'])]

theorem takeAdvance_eq_none {s : State} {evs : List Event} (h : ∀ d ∈ evs, advancesHandler s d = false) :
    takeAdvance s evs = none := by
  induction evs with
  | nil => rfl
  | cons d evs ih =>
    simp [takeAdvance, h d (by simp), ih fun d' h' => h d' (by simp [h'])]

/-- An event that advances a handler is a micro-step of a channel in flight. -/
theorem advancesHandler_iff {s : State} {e : Event} :
    advancesHandler s e = true ↔ ∃ x lvl t, e = .micro x lvl t ∧ (s.flight x).isSome = true := by
  cases e <;> simp [advancesHandler]

/-! ## One step -/

/-- With no event waiting the block idles (R211). -/
theorem step_idle {s : State} (h : s.input = []) : step s = .next s := by
  simp [step, takeEvent, h, idle]

/-- With an event waiting that is no `SUSPEND` with a handler in flight, the step performs it. -/
theorem step_event {s : State} {e : Event} {rest : List Event} (h : s.input = e :: rest) (hw : suspendWaits e s = false) :
    step s = performEvent e { s with input := rest } := by
  simp [step, takeEvent, h, hw]

/-- While a `SUSPEND` waits, the step performs the first micro-step of a handler in flight and leaves the rest in place. -/
theorem step_advance {s : State} {e d : Event} {before behind : List Event} (h : s.input = e :: (before ++ d :: behind))
    (hw : suspendWaits e s = true) (hd : advancesHandler s d = true) (hb : ∀ c ∈ before, advancesHandler s c = false) :
    step s = performEvent d { s with input := e :: (before ++ behind) } := by
  simp [step, takeEvent, h, hw, takeAdvance_append hd hb]

/-- While a `SUSPEND` waits and no micro-step of a handler in flight is there to be taken, the block idles. -/
theorem step_suspend_idle {s : State} {e : Event} {rest : List Event} (h : s.input = e :: rest)
    (hw : suspendWaits e s = true) (hb : ∀ c ∈ rest, advancesHandler s c = false) : step s = .next s := by
  simp [step, takeEvent, h, hw, takeAdvance_eq_none hb, idle]

/-- No operation waits while nothing is in flight. -/
theorem waitsForFlight_quiet (i : Instr) {s : State} (h : Safety.Quiet s) : waitsForFlight i s = false := by
  obtain ⟨ha, hb⟩ := h
  cases i <;> simp [waitsForFlight, ha, hb]

/-- An accepted word that need not wait is performed. -/
theorem issueWord_ok {w : OpWord} {s : State} {i : Instr} (h : decode s.mode s.cfg.busW w = .ok i)
    (hw : waitsForFlight i s = false) : issueWord w s = exec i s := by
  simp [issueWord, h, hw]

/-- An accepted word that must wait is held. -/
theorem issueWord_waits {w : OpWord} {s : State} {i : Instr} (h : decode s.mode s.cfg.busW w = .ok i)
    (hw : waitsForFlight i s = true) : issueWord w s = .next { s with outcome := .held } := by
  simp [issueWord, h, hw, held]

/-- A reserved word is refused (R93). -/
theorem issueWord_error {w : OpWord} {s : State} {why : Reserved} (h : decode s.mode s.cfg.busW w = .error why) :
    issueWord w s = .refused (.reservedWord why) := by
  simp [issueWord, h]

/-- The events a micro-step leaves behind it: those after it at the head of the input, or all the others while a `SUSPEND` waits there. -/
def MicroNext (s : State) (d : Event) (evs : List Event) : Prop :=
  s.input = d :: evs ∨
    ∃ e before behind, s.input = e :: (before ++ d :: behind) ∧ evs = e :: (before ++ behind) ∧
      suspendWaits e s = true ∧ advancesHandler s d = true ∧ ∀ c ∈ before, advancesHandler s c = false

/-- Everything a step that answers a next state can have done. -/
theorem step_next {s t : State} (h : step s = .next t) :
    (t = s ∧ (s.input = [] ∨
      ∃ e rest, s.input = e :: rest ∧ suspendWaits e s = true ∧ takeAdvance s rest = none)) ∨
    (∃ w rest i, s.input = .op w :: rest ∧ decode s.mode s.cfg.busW w = .ok i ∧ waitsForFlight i s = true ∧
      t = { s with input := rest, outcome := .held }) ∨
    (∃ w rest i, s.input = .op w :: rest ∧ decode s.mode s.cfg.busW w = .ok i ∧ waitsForFlight i s = false ∧
      (i = .suspend → Safety.Quiet s) ∧ exec i { s with input := rest } = .next t) ∨
    (∃ x rest, s.input = .startHandler x :: rest ∧ startHandler x { s with input := rest } = .next t) ∨
    (∃ x lvl tm evs, MicroNext s (.micro x lvl tm) evs ∧ microStep x lvl tm { s with input := evs } = .next t) := by
  rcases hi : s.input with _ | ⟨e, rest⟩
  · rw [step_idle hi] at h
    exact .inl ⟨(Host.Outcome.next.inj h).symm, .inl rfl⟩
  rcases hw : suspendWaits e s with _ | _
  · rw [step_event hi hw] at h
    cases e with
    | op w =>
      simp only [performEvent, issueWord] at h
      split at h
      · cases h
      · next i hd =>
        have hwait : waitsForFlight i { s with input := rest } = waitsForFlight i s := by cases i <;> rfl
        split at h
        · next hf =>
          exact .inr (.inl ⟨w, rest, i, rfl, hd, hwait ▸ hf, by rw [held_eq_next] at h; exact h⟩)
        · next hf =>
          refine .inr (.inr (.inl ⟨w, rest, i, rfl, hd, by rw [← hwait]; simpa using hf, fun hs => ?_, h⟩))
          by_contra hq
          rw [suspendWaits_iff.2 ⟨w, rfl, hs ▸ hd, hq⟩] at hw
          cases hw
    | startHandler x => exact .inr (.inr (.inr (.inl ⟨x, rest, rfl, h⟩)))
    | micro x lvl tm => exact .inr (.inr (.inr (.inr ⟨x, lvl, tm, rest, .inl hi, h⟩)))
  · rcases ht : takeAdvance s rest with _ | ⟨d, evs⟩
    · simp [step, takeEvent, hi, hw, ht, idle] at h
      exact .inl ⟨h.symm, .inr ⟨e, rest, rfl, hw, ht⟩⟩
    · simp only [step, takeEvent, hi, hw, if_true, ht, Option.map_some] at h
      obtain ⟨hd, before, behind, rfl, rfl, hb⟩ := takeAdvance_eq_some ht
      obtain ⟨x, lvl, tm, rfl, _⟩ := advancesHandler_iff.1 hd
      exact .inr (.inr (.inr (.inr ⟨x, lvl, tm, _, .inr ⟨e, before, behind, hi, rfl, hw, hd, hb⟩, h⟩)))

/-- A handler begins only on a machine whose handlers are not atomic (R238). -/
theorem startHandler_next {x : Channel} {s t : State} (h : startHandler x s = .next t) :
    s.cfg.handlerAtomic = false ∧
      ((s.hold = true ∧ t = { s with outcome := .held }) ∨
       (s.hold = false ∧ (s.flight x).isSome = true ∧ t = { s with outcome := .held }) ∨
       (s.hold = false ∧ s.flight x = none ∧ s.att = false ∧ t = { s with outcome := .done }) ∨
       (s.hold = false ∧ s.flight x = none ∧ s.att = true ∧
         t = { s.setFlight x (some { mode := s.mode, next := .inputT }) with outcome := .done })) := by
  unfold startHandler at h
  split at h
  · cases h
  · next hc =>
    refine ⟨by simpa using hc, ?_⟩
    split at h
    · next hh => exact .inl ⟨hh, (held_eq_next _ _).1 h⟩
    · next hh =>
      have hf : s.hold = false := by simpa using hh
      split at h
      · next hs => exact .inr (.inl ⟨hf, hs, (held_eq_next _ _).1 h⟩)
      · next hs =>
        have hn : s.flight x = none := by simpa using hs
        split at h
        · next ha => exact .inr (.inr (.inr ⟨hf, hn, ha, (done_eq_next _ _).1 h⟩))
        · next ha => exact .inr (.inr (.inl ⟨hf, hn, by simpa using ha, (done_eq_next _ _).1 h⟩))

/-- A micro-step is one of a handler in flight (R233). -/
theorem microStep_next {x : Channel} {lvl : Bool} {tm : Stamp} {s t : State} (h : microStep x lvl tm s = .next t) :
    s.cfg.handlerAtomic = false ∧ ∃ f, s.flight x = some f ∧
      t = { (microEffect f.mode x lvl tm f.next s).2.setFlight x
              ((microEffect f.mode x lvl tm f.next s).1.map fun n => { mode := f.mode, next := n }) with
            outcome := .done } := by
  unfold microStep at h
  split at h
  · cases h
  · next hc =>
    refine ⟨by simpa using hc, ?_⟩
    split at h
    · cases h
    · next f hf => exact ⟨f, hf, (done_eq_next _ _).1 h⟩

/-- A micro-step of a handler in flight is performed. -/
theorem microStep_flight {x : Channel} {lvl : Bool} {tm : Stamp} {s : State} {f : Flight}
    (hc : s.cfg.handlerAtomic = false) (hf : s.flight x = some f) :
    microStep x lvl tm s =
      .next { (microEffect f.mode x lvl tm f.next s).2.setFlight x
                ((microEffect f.mode x lvl tm f.next s).1.map fun n => { mode := f.mode, next := n }) with
              outcome := .done } := by
  simp [microStep, hc, hf, done]

/-! ## Runs -/

/-- What an outcome becomes under a further run. -/
def thenRun (r : Result) (k : State → Result) : Result :=
  match r with
  | .next t => k t
  | .fault f => .fault f
  | .refused f => .refused f

@[simp] theorem thenRun_next (t : State) (k : State → Result) : thenRun (.next t) k = k t := rfl

/-- No operation changes the parameters, the handlers in flight or the events behind it. -/
theorem exec_frame {i : Instr} {s t : State} (h : exec i s = .next t) :
    t.cfg = s.cfg ∧ t.flightA = s.flightA ∧ t.flightB = s.flightB ∧ t.input = s.input := by
  rcases he : i.edgeOf with _ | ⟨x, m⟩
  · cases i with
    | edgeAStd _ _ | edgeADbl _ _ | edgeAQuad _ _ | edgeBStd _ _ | edgeBDbl _ _ | edgeBQuad _ _ => cases he
    | readBeat k =>
      simp only [exec, execReadBeat] at h
      split at h
      · rw [answer_eq_next] at h; subst h; exact ⟨rfl, rfl, rfl, rfl⟩
      · cases h
    | readPosition | isValid =>
      simp only [exec, execReadPosition, execIsValid, answer_eq_next] at h; subst h; exact ⟨rfl, rfl, rfl, rfl⟩
    | nop | setHoldoff _ | setListener _ | construct _ _ _ _ _ | detach | suspend | resume =>
      simp only [exec, execNop, execSetHoldoff, execSetListener, execConstruct, execDetach, execSuspend, execResume,
        done_eq_next] at h
      subst h; exact ⟨rfl, rfl, rfl, rfl⟩
  · obtain ⟨lvl, tm, rfl⟩ := edgeOf_eq_some he
    rw [exec_edgeRow] at h
    rcases (edgeGate_next h).2 with ⟨_, rfl⟩ | ⟨_, _, rfl⟩ | ⟨_, _, rfl⟩
    · exact ⟨rfl, rfl, rfl, rfl⟩
    · exact ⟨rfl, rfl, rfl, rfl⟩
    · exact ⟨(handlerOf_frame x m lvl tm s).1, (handlerOf_frame x m lvl tm s).2.2.2.2.2.2.2.2⟩

theorem exec_input {i : Instr} {s t : State} (h : exec i s = .next t) : t.input = s.input := (exec_frame h).2.2.2

/-- A micro-step's effect leaves the parameters and the events alone. -/
theorem microEffect_frame (m : Mode) (x : Channel) (lvl : Bool) (tm : Stamp) (q : Micro) (s : State) :
    (microEffect m x lvl tm q s).2.input = s.input ∧ (microEffect m x lvl tm q s).2.cfg = s.cfg := by
  cases q <;> simp [microEffect, armOther, disarm, stamp]

/-- A performed event leaves the events behind it alone. -/
theorem performEvent_input {e : Event} {s t : State} (h : performEvent e s = .next t) : t.input = s.input := by
  cases e with
  | op w =>
    simp only [performEvent, issueWord] at h
    split at h
    · cases h
    · split at h
      · rw [held_eq_next] at h; rw [h]
      · exact exec_input h
  | startHandler x =>
    rcases (startHandler_next h).2 with ⟨_, rfl⟩ | ⟨_, _, rfl⟩ | ⟨_, _, _, rfl⟩ | ⟨_, _, _, rfl⟩ <;> simp
  | micro x lvl tm =>
    obtain ⟨_, f, _, rfl⟩ := microStep_next h
    simpa using (microEffect_frame f.mode x lvl tm f.next s).1

end Sys2Proof.Machine

namespace Sys2Proof.Safety

open Sys2Proof Sys2Proof.Machine

/-- A run of `k + 1` steps is one step and a run of `k`. -/
theorem run_succ (k : Nat) (s : State) :
    Host.Core.run core (k + 1) s = thenRun (step s) (Host.Core.run core k) := by
  simp only [Host.Core.run, core]
  cases step s <;> rfl

@[simp] theorem runEvents_nil (s : State) : runEvents s [] = .next { s with input := [] } := rfl

/-- A run performs its first event and goes on, where that is no `SUSPEND` with a handler in flight. -/
theorem runEvents_cons (s : State) (e : Event) (evs : List Event) (hw : suspendWaits e s = false) :
    runEvents s (e :: evs) =
      thenRun (performEvent e { s with input := evs }) fun t => runEvents t evs := by
  have hstep : step { s with input := e :: evs } = performEvent e { s with input := evs } :=
    step_event rfl (by simpa using hw)
  simp only [runEvents, List.length_cons, Host.Core.run, core]
  rw [hstep]
  cases h : performEvent e { s with input := evs } with
  | next t =>
    have hi : t.input = evs := performEvent_input h
    simp only [thenRun_next]
    congr 1
    rw [← hi]
  | fault f => cases f
  | refused r => rfl

/-! ## Runs of operations -/

/-- What an answer is with other events waiting behind it. -/
def withInput (evs : List Event) (r : Result) : Result := thenRun r fun t => .next { t with input := evs }

/-- No operation looks at the events behind it. -/
theorem exec_withInput (i : Instr) (s : State) (evs : List Event) :
    exec i { s with input := evs } = withInput evs (exec i s) := by
  have gate : ∀ (m : Mode) (hd : State → State), hd { s with input := evs } = { hd s with input := evs } →
      edgeGate m hd { s with input := evs } = withInput evs (edgeGate m hd s) := by
    intro m hd h
    unfold edgeGate
    simp only [h]
    split
    · split
      · rfl
      · split <;> rfl
    · rfl
  cases i with
  | edgeAStd lvl tm => exact gate _ _ (by simp only [handlerAStd_eq])
  | edgeADbl lvl tm => exact gate _ _ (by simp only [handlerADbl_eq])
  | edgeAQuad lvl tm => exact gate _ _ (by simp only [handlerAQuad_eq, handlerADbl_eq])
  | edgeBStd lvl tm => exact gate _ _ rfl
  | edgeBDbl lvl tm => exact gate _ _ rfl
  | edgeBQuad lvl tm => exact gate _ _ (by simp only [handlerBQuad_eq])
  | readBeat k =>
    simp only [exec, execReadBeat]
    split <;> rfl
  | nop | setHoldoff _ | setListener _ | readPosition | isValid | construct _ _ _ _ _ | detach | suspend | resume => rfl

/-- No micro-step looks at the events behind it. -/
theorem microEffect_withInput (m : Mode) (x : Channel) (lvl : Bool) (tm : Stamp) (q : Micro) (s : State) (evs : List Event) :
    microEffect m x lvl tm q { s with input := evs } =
      ((microEffect m x lvl tm q s).1, { (microEffect m x lvl tm q s).2 with input := evs }) := by
  cases q with
  | testDisarmed | testHoldoff | testElapsed | readListener =>
    cases x <;> simp [microEffect, State.arm, State.last] <;> rfl
  | _ => cases x <;> rfl

/-- A micro-step of the handler in flight is the same with other events waiting behind it. -/
theorem microStep_withInput (x : Channel) (lvl : Bool) (tm : Stamp) (s : State) (evs : List Event) :
    microStep x lvl tm { s with input := evs } = withInput evs (microStep x lvl tm s) := by
  have hf : ({ s with input := evs } : State).flight x = s.flight x := by cases x <;> rfl
  unfold microStep
  rw [hf]
  split
  · rfl
  · split
    · rfl
    · next f _ =>
      rw [microEffect_withInput]
      cases x <;> rfl

/-- The word of a line decodes to its operation, or is a beat index out of range (R93, R96). -/
theorem decode_word (m : Mode) (b : BusW) (o : TraceOp) :
    decode m b o.word = .ok (o.instr m) ∨
      (∃ k : BitVec 2, o = .readBeat k ∧ ¬ k.toNat < beatCount b ∧ decode m b o.word = .error .beatIndex) := by
  have pair : ∀ k : BitVec 2, (0#2 ++ k : BitVec 4) = auxOfPair k := fun _ => rfl
  have bit : ∀ v : Bool, (0#3 ++ BitVec.ofBool v : BitVec 4) = auxOfBit v := fun _ => rfl
  cases o with
  | edge x lvl tm => cases x <;> left <;> simp [TraceOp.word, TraceOp.instr, edgeRow, decode, formatE, bit]
  | construct n lvlA lvlB vA vB =>
    obtain ⟨h0, h1, h2, h3, hr⟩ := constructData_bits lvlA lvlB vA vB
    left
    simp only [TraceOp.word, TraceOp.instr, decode, formatC, pair, opField_opWord, auxField_opWord, dataField_opWord,
      auxOfPair_rest, auxOfPair_pair, hr, h0, h1, h2, h3, modeOfCode_modeCode]
    rfl
  | readBeat k =>
    by_cases hk : k.toNat < beatCount b
    · left; simp [TraceOp.word, TraceOp.instr, decode, formatK, pair, hk]
    · right; exact ⟨k, rfl, hk, by simp [TraceOp.word, decode, formatK, pair, hk]⟩
  | setHoldoff imm => left; simp [TraceOp.word, TraceOp.instr, decode, formatH]
  | setListener en => left; simp [TraceOp.word, TraceOp.instr, decode, formatL, bit]
  | nop => left; rfl
  | readPosition => left; rfl
  | isValid => left; rfl
  | detach => left; rfl
  | suspend => left; rfl
  | resume => left; rfl

/-- While nothing is in flight, issuing the word of a line is executing its operation. -/
theorem issueWord_word (o : TraceOp) {s : State} (h : Quiet s) : issueWord o.word s = exec (o.instr s.mode) s := by
  rcases decode_word s.mode s.cfg.busW o with hd | ⟨k, rfl, hk, hd⟩
  · exact issueWord_ok hd (waitsForFlight_quiet _ h)
  · rw [issueWord_error hd]
    simp [TraceOp.instr, exec, execReadBeat, hk]

@[simp] theorem runOps_nil (s : State) : runOps s [] = .next { s with input := [] } := rfl

/-- A run of operations performs the first and goes on. -/
theorem runOps_cons (s : State) (o : TraceOp) (ops : List TraceOp) (h : Quiet s) :
    runOps s (o :: ops) = thenRun (exec (o.instr s.mode) s) fun t => runOps t ops := by
  have hr : runOps s (o :: ops) = runEvents s (.op o.word :: opEvents ops) := rfl
  rw [hr, runEvents_cons _ _ _ (suspendWaits_quiet _ h)]
  have hi : performEvent (.op o.word) { s with input := opEvents ops } =
      exec (o.instr s.mode) { s with input := opEvents ops } := issueWord_word o h
  rw [hi, exec_withInput]
  cases exec (o.instr s.mode) s <;> rfl

/-- Operations keep the machine quiet. -/
theorem exec_quiet {i : Instr} {s t : State} (h : exec i s = .next t) (hq : Quiet s) : Quiet t :=
  ⟨(exec_frame h).2.1.trans hq.1, (exec_frame h).2.2.1.trans hq.2⟩

end Sys2Proof.Safety
end

