-- ==== Sys2Proof/Tests/Slice0.lean ====
section
/-! SUPPORT. The model's own tests. Expected values are those of spec/95_test_vectors.md, 30_encoding.md R96 and 70_reset_and_hazards.md R234 to
R236, named in each docstring. The last section has, for every obligation with hypotheses, concrete states and operands that meet them. -/

namespace Sys2Proof.Tests

open Sys2Proof Sys2Proof.Machine Sys2Proof.Safety

/-! ## Helpers -/

/-- The next state of an answer. -/
def after (r : Result) : Option State :=
  match r with
  | .next t => some t
  | .fault _ => none
  | .refused _ => none

/-- The reason of a refusal. -/
def reason (r : Result) : Option Refusal :=
  match r with
  | .next _ => none
  | .fault _ => none
  | .refused q => some q

/-- Mode `m`, a listener installed, `holdoff` 0 and both channels disarmed: the start of the vectors of 95 §2.1. -/
def base (m : Mode) : State := { State.reset with mode := m, lsn := true, armA := .zero, armB := .zero }

/-- The state of V-R1. -/
def missed : State :=
  { base .dbl with holdoff := 1000#32, counter := 1#32, putA := .neg, lastA := 2000#32 }

/-- A machine of the refinement, in mode `m`. -/
def loose (m : Mode) : State := { base m with cfg := { Params.spec with handlerAtomic := false } }

/-- A word is issued next. -/
def issued (w : OpWord) (s : State) : State := { s with input := [.op w] }

/-- What the vectors of 95 §2 give after an edge of one channel. -/
structure View where
  counter : Word
  notifies : List Word
  arm : Tri
  put : Tri
  last : Stamp
  deriving DecidableEq, Repr

/-- Counter, Notify stream, `arm`, `put` and `last` of channel A after one operation. -/
def viewA (i : Instr) (s : State) : Option View :=
  (after (exec i s)).map fun t => ⟨t.counter, t.notifies, t.armA, t.putA, t.lastA⟩

/-- `arm[A]`, then the same of channel B. -/
def viewB (i : Instr) (s : State) : Option (Tri × View) :=
  (after (exec i s)).map fun t => (t.armA, ⟨t.counter, t.notifies, t.armB, t.putB, t.lastB⟩)

/-- The outputs and the outcome of one operation. -/
def viewOut (i : Instr) (s : State) : Option (List Word × OpOutcome) :=
  (after (exec i s)).map fun t => (t.results, t.outcome)

/-! ## WellFormed: one ill-formed term for each check -/

/-- R92: an edge row of another mode is no operation of this machine. -/
theorem test_wf_refuses_edge_of_another_mode :
    (Instr.edgeADbl true 0#32).wf .std .b8 = false ∧ (Instr.edgeBQuad false 0#32).wf .dbl .b8 = false := by decide

/-- R91: a beat index out of range. -/
theorem test_wf_refuses_beat_out_of_range :
    (Instr.readBeat 2#2).wf .std .b16 = false ∧ (Instr.readBeat 1#2).wf .std .b32 = false ∧
      (Instr.readBeat 3#2).wf .std .b8 = true := by decide

/-! ## Decoding: words written bit by bit from R88 to R91 -/

/-- Format `N`. -/
theorem test_decode_format_N :
    decode .std .b8 (0b0000#4 ++ 0b0000#4 ++ 0#32) = .ok .nop ∧
    decode .std .b8 (0b0110#4 ++ 0b0000#4 ++ 0#32) = .ok .readPosition ∧
    decode .std .b8 (0b0111#4 ++ 0b0000#4 ++ 0#32) = .ok .isValid ∧
    decode .std .b8 (0b1001#4 ++ 0b0000#4 ++ 0#32) = .ok .detach ∧
    decode .std .b8 (0b1010#4 ++ 0b0000#4 ++ 0#32) = .ok .suspend ∧
    decode .std .b8 (0b1011#4 ++ 0b0000#4 ++ 0#32) = .ok .resume := ⟨rfl, rfl, rfl, rfl, rfl, rfl⟩

/-- Format `E`: `aux[0]` is the level, `data` the stamp; the mode selects the row (R92). -/
theorem test_decode_format_E :
    decode .std .b8 (0b0001#4 ++ 0b0001#4 ++ 0xFFFFFFFF#32) = .ok (.edgeAStd true 0xFFFFFFFF#32) ∧
    decode .dbl .b8 (0b0001#4 ++ 0b0000#4 ++ 0x80000001#32) = .ok (.edgeADbl false 0x80000001#32) ∧
    decode .quad .b8 (0b0001#4 ++ 0b0001#4 ++ 2000#32) = .ok (.edgeAQuad true 2000#32) ∧
    decode .std .b8 (0b0010#4 ++ 0b0000#4 ++ 0#32) = .ok (.edgeBStd false 0#32) ∧
    decode .dbl .b8 (0b0010#4 ++ 0b0001#4 ++ 1000#32) = .ok (.edgeBDbl true 1000#32) ∧
    decode .quad .b8 (0b0010#4 ++ 0b0000#4 ++ 7000#32) = .ok (.edgeBQuad false 7000#32) :=
  ⟨rfl, rfl, rfl, rfl, rfl, rfl⟩

/-- Formats `H`, `L` and `K`. -/
theorem test_decode_formats_H_L_K :
    decode .std .b8 (0b0100#4 ++ 0b0000#4 ++ 0xFFFFFFFF#32) = .ok (.setHoldoff 0xFFFFFFFF#32) ∧
    decode .std .b8 (0b0101#4 ++ 0b0001#4 ++ 0#32) = .ok (.setListener true) ∧
    decode .std .b8 (0b0101#4 ++ 0b0000#4 ++ 0#32) = .ok (.setListener false) ∧
    decode .std .b8 (0b1100#4 ++ 0b0011#4 ++ 0#32) = .ok (.readBeat 3#2) ∧
    decode .std .b16 (0b1100#4 ++ 0b0001#4 ++ 0#32) = .ok (.readBeat 1#2) := ⟨rfl, rfl, rfl, rfl, rfl⟩

/-- Format `C`, one bit of `data` at a time: `data[0]` lvlA, `data[1]` lvlB, `data[2]` vA, `data[3]` vB. -/
theorem test_decode_format_C :
    decode .std .b8 (0b1000#4 ++ 0b0000#4 ++ 0b0001#32) = .ok (.construct .std true false false false) ∧
    decode .std .b8 (0b1000#4 ++ 0b0001#4 ++ 0b0010#32) = .ok (.construct .dbl false true false false) ∧
    decode .std .b8 (0b1000#4 ++ 0b0010#4 ++ 0b0100#32) = .ok (.construct .quad false false true false) ∧
    decode .std .b8 (0b1000#4 ++ 0b0010#4 ++ 0b1000#32) = .ok (.construct .quad false false false true) :=
  ⟨rfl, rfl, rfl, rfl⟩

/-- 95 §2.7: the reserved words, each refused under its own reason. -/
theorem test_reserved_words :
    [0x3000000000#40, 0xD000000000#40, 0xE000000000#40, 0xF000000000#40, 0x1200000000#40, 0x6000000001#40,
      0x4100000000#40, 0x5100000001#40, 0x830000000C#40, 0x8000000010#40, 0xC400000000#40].map
        (fun w => reason (step (issued w State.reset))) =
      [.opcode, .opcode, .opcode, .opcode, .unnamedBit, .unnamedBit, .unnamedBit, .unnamedBit, .modeCode, .unnamedBit,
        .unnamedBit].map fun q => some (.reservedWord q) := by decide

/-- V-A5's third operation: `READ_BEAT 2` with `BUS_W` 16. -/
theorem test_reserved_beat :
    reason (step (issued 0xC200000000#40 { State.reset with cfg := { Params.spec with busW := .b16 } })) =
      some (.reservedWord .beatIndex) := by decide

/-- The host's numbering is the word's own; an edge word is read in the mode of reset (log 4). -/
theorem test_decodeTableWord :
    decodeTableWord 40 0x11000000C8 = some (.edgeAStd true 200#32) ∧ decodeTableWord 40 0x820000000D =
      some (.construct .quad true false true true) ∧ decodeTableWord 40 0x3000000000 = none := by decide

/-- 30_encoding.md R96's examples of lines. -/
theorem test_readLine :
    readLine "EDGE_A t=200 lvl=1 ; a comment" = some (.op (.edge .a true 200#32)) ∧
    readLine "CONSTRUCT mode=QUAD lvlA=1 lvlB=0" = some (.op (.construct .quad true false true true)) ∧
    readLine "SET_HOLDOFF 0x3E8" = some (.op (.setHoldoff 1000#32)) ∧
    readLine "TOGGLE_B 3999" = some (.pseudo (.toggleB 3999#32)) ∧ readLine "EDGE_A lvl=2 t=0" = none := by decide

/-! ## One operation -/

/-- V-T2, V-T4, V-T5, V-T6. -/
theorem test_edgeAStd :
    viewA (.edgeAStd true 9#32) { base .std with armA := .neg } = some ⟨0#32, [], .zero, .pos, 9#32⟩ ∧
    viewA (.edgeAStd true 9#32) (base .std) = some ⟨0#32, [], .zero, .zero, 9#32⟩ ∧
    viewA (.edgeAStd false 9#32) { base .std with armA := .pos } = some ⟨0xFFFFFFFF#32, [0xFFFFFFFF#32], .zero, .neg, 9#32⟩ ∧
    viewA (.edgeAStd true 9#32) { base .std with armA := .pos } = some ⟨1#32, [1#32], .zero, .neg, 9#32⟩ := by decide

/-- V-T7, V-T8, V-T11, V-T12. -/
theorem test_edgeADbl :
    viewA (.edgeADbl false 9#32) { base .dbl with armA := .neg } = some ⟨1#32, [1#32], .zero, .pos, 9#32⟩ ∧
    viewA (.edgeADbl true 9#32) { base .dbl with armA := .neg } = some ⟨0xFFFFFFFF#32, [0xFFFFFFFF#32], .zero, .pos, 9#32⟩ ∧
    viewA (.edgeADbl false 9#32) { base .dbl with armA := .pos } = some ⟨0xFFFFFFFF#32, [0xFFFFFFFF#32], .zero, .neg, 9#32⟩ ∧
    viewA (.edgeADbl true 9#32) { base .dbl with armA := .pos } = some ⟨1#32, [1#32], .zero, .neg, 9#32⟩ := by decide

/-- V-R1 to V-R3, V-R5a and V-R5b: recovery at, below and above the holdoff, and across the clock's wrap. -/
theorem test_edgeADbl_recovery :
    viewA (.edgeADbl false 4000#32) missed = some ⟨2#32, [2#32], .zero, .pos, 4000#32⟩ ∧
    viewA (.edgeADbl false 2999#32) missed = some ⟨1#32, [], .zero, .zero, 2999#32⟩ ∧
    viewA (.edgeADbl false 3000#32) missed = some ⟨2#32, [2#32], .zero, .pos, 3000#32⟩ ∧
    viewA (.edgeADbl false 0x2E8#32) { missed with lastA := 0xFFFFFF00#32 } = some ⟨2#32, [2#32], .zero, .pos, 0x2E8#32⟩ ∧
    viewA (.edgeADbl false 0x2E7#32) { missed with lastA := 0xFFFFFF00#32 } = some ⟨1#32, [], .zero, .zero, 0x2E7#32⟩ := by
  decide

/-- V-T7 in `QUAD`, whose `arm[B]` takes the sign of the level, and V-R12. -/
theorem test_edgeAQuad :
    viewA (.edgeAQuad false 9#32) { base .quad with armA := .neg } = some ⟨1#32, [1#32], .zero, .pos, 9#32⟩ ∧
    viewA (.edgeAQuad false 2500#32) { base .quad with holdoff := 1000#32, putA := .pos, lastA := 1000#32 } =
      some ⟨0xFFFFFFFF#32, [0xFFFFFFFF#32], .zero, .neg, 2500#32⟩ ∧
    (after (exec (.edgeAQuad false 9#32) { base .quad with armA := .neg })).map (·.armB) = some .neg := by decide

/-- V-T13 and V-T14 in `STD`. -/
theorem test_edgeBStd :
    viewB (.edgeBStd false 9#32) { base .std with armB := .neg } = some (.neg, ⟨0#32, [], .zero, .zero, 9#32⟩) ∧
    viewB (.edgeBStd true 9#32) { base .std with armB := .pos } = some (.pos, ⟨0#32, [], .zero, .zero, 9#32⟩) := by decide

/-- V-T13 and V-T14 in `DBL`. -/
theorem test_edgeBDbl :
    viewB (.edgeBDbl false 9#32) { base .dbl with armB := .pos } = some (.neg, ⟨0#32, [], .zero, .zero, 9#32⟩) ∧
    viewB (.edgeBDbl true 9#32) (base .dbl) = some (.pos, ⟨0#32, [], .zero, .zero, 9#32⟩) := by decide

/-- V-T15, V-T16, V-T19, V-T20. -/
theorem test_edgeBQuad :
    viewB (.edgeBQuad false 9#32) { base .quad with armB := .neg } =
      some (.neg, ⟨0xFFFFFFFF#32, [0xFFFFFFFF#32], .zero, .pos, 9#32⟩) ∧
    viewB (.edgeBQuad true 9#32) { base .quad with armB := .neg } = some (.pos, ⟨1#32, [1#32], .zero, .pos, 9#32⟩) ∧
    viewB (.edgeBQuad false 9#32) { base .quad with armB := .pos } = some (.neg, ⟨1#32, [1#32], .zero, .neg, 9#32⟩) ∧
    viewB (.edgeBQuad true 9#32) { base .quad with armB := .pos } =
      some (.pos, ⟨0xFFFFFFFF#32, [0xFFFFFFFF#32], .zero, .neg, 9#32⟩) := by decide

/-- V-R7 and V-R7b. -/
theorem test_edgeBQuad_recovery :
    viewB (.edgeBQuad false 3000#32)
        { base .quad with holdoff := 1000#32, counter := 2#32, putB := .pos, lastB := 1000#32 } =
      some (.neg, ⟨3#32, [3#32], .zero, .neg, 3000#32⟩) ∧
    viewB (.edgeBQuad false 3000#32)
        { base .quad with holdoff := 1000#32, counter := 2#32, putB := .pos, lastB := 2500#32 } =
      some (.neg, ⟨2#32, [], .zero, .zero, 3000#32⟩) := by decide

/-- V-R9a and V-R9b: the counter wraps at both ends. -/
theorem test_counter_wraps :
    viewA (.edgeADbl true 100#32) { base .dbl with counter := 0x7FFFFFFF#32, armA := .pos } =
      some ⟨0x80000000#32, [0x80000000#32], .zero, .neg, 100#32⟩ ∧
    viewA (.edgeADbl false 100#32) { base .dbl with counter := 0x80000000#32, armA := .pos } =
      some ⟨0x7FFFFFFF#32, [0x7FFFFFFF#32], .zero, .neg, 100#32⟩ := by decide

/-- V-G1 and V-G2. -/
theorem test_gates :
    exec (.edgeAStd true 200#32) { base .std with armA := .pos, hold := true } =
      .next { base .std with armA := .pos, hold := true, outcome := .held } ∧
    exec (.edgeAStd true 9000#32) { base .std with armA := .pos, att := false, counter := 7#32 } =
      .next { base .std with armA := .pos, att := false, counter := 7#32 } := ⟨rfl, rfl⟩

/-- V-L7, V-L9, V-L10 and V-G3 for three of its operations. -/
theorem test_settings :
    (after (exec (.setHoldoff 250#32) missed)).map (·.holdoff) = some 250#32 ∧
    (after (exec (.setListener true) State.reset)).map (·.lsn) = some true ∧
    (after (exec .nop { missed with hold := true })) = some { missed with hold := true } := by decide

/-- V-A1 with `READ_BEAT 0` and `3`, V-A5's first two, V-L5's reads and V-L4's `IS_VALID`. -/
theorem test_reads :
    viewOut .readPosition { base .std with counter := 0xFFFFFFFD#32 } = some ([0xFFFFFFFD#32], .done) ∧
    viewOut (.readBeat 0#2) { base .std with counter := 0xFFFFFFFD#32 } = some ([0xFD#32], .done) ∧
    viewOut (.readBeat 3#2) { base .std with counter := 0xFFFFFFFD#32 } = some ([0xFF#32], .done) ∧
    viewOut (.readBeat 0#2) { base .std with counter := 0x12345#32, cfg := { Params.spec with busW := .b16 } } =
      some ([0x2345#32], .done) ∧
    viewOut (.readBeat 1#2) { base .std with counter := 0x12345#32, cfg := { Params.spec with busW := .b16 } } =
      some ([0x1#32], .done) ∧
    viewOut .isValid { base .std with att := false } = some ([1#32], .done) ∧
    viewOut .isValid { base .std with validB := false, att := false } = some ([0#32], .done) := by decide

/-- V-A6: one `RESUME` ends any number of `SUSPEND`s. -/
theorem test_suspend_resume :
    (after (exec .suspend { base .std with hold := true })).map (·.hold) = some true ∧
    (after (exec .resume { base .std with hold := true })).map (·.hold) = some false := by decide

/-- V-L4 and V-L6. -/
theorem test_construct :
    after (exec (.construct .quad false true true false) missed) =
      some { missed with mode := .quad, counter := 0#32, armA := .neg, armB := .pos, putA := .zero, lastA := 0#32,
                         lsn := false, validB := false, att := false } ∧
    after (exec (.construct .std true true true true) { missed with holdoff := 250#32 }) =
      some { State.reset with armA := .pos, armB := .pos } := by decide

/-- V-L5. -/
theorem test_detach : after (exec .detach missed) = some { missed with att := false } := by decide

/-! ## The step and the word the host places -/

/-- After reset, `CONSTRUCT mode=DBL lvlA=1 lvlB=0` (V-L2) issued as the host's word. -/
theorem test_withFetchWord :
    (after (step (State.reset.withFetchWord 40 0x810000000D))).map (fun t => (t.mode, t.armA, t.armB, t.holdoff, t.input)) =
      some (.dbl, .pos, .neg, 1000#32, []) := by decide

/-- The block idles while nothing is issued (R211). -/
theorem test_idle : step State.reset = .next State.reset := rfl

/-! ## The refinement, one micro-step each -/

/-- R234: micro-step 16 wipes the claim a whole `EDGE_B` has just stored. -/
theorem test_lost_claim :
    (after (microStep .a true 7#32 { loose .dbl with armA := .neg, flightA := some ⟨.dbl, .disarm 5#32⟩ })).map
      (fun t => (t.armA, t.flightA)) = some (.zero, some ⟨.dbl, .stamp 5#32⟩) := by decide

/-- R235: micro-step 11 writes the count of the value read before the other channel's count. -/
theorem test_lost_count :
    (after (microStep .b true 7#32
        { loose .quad with counter := 11#32, flightB := some ⟨.quad, .writeCounter 5#32 .pos 10#32⟩ })).map
      (fun t => (t.counter, t.flightB)) = some (11#32, some ⟨.quad, .readListener 5#32 11#32⟩) := by decide

/-- R236: micro-step 15 predicts from the claim micro-step 14 found. -/
theorem test_wrong_prediction :
    (after (microStep .a true 7#32 { loose .dbl with armA := .neg, flightA := some ⟨.dbl, .readArm 5#32⟩ })).map (·.flightA) =
      some (some ⟨.dbl, .writePut 5#32 .neg⟩) ∧
    (after (microStep .a true 7#32 { loose .dbl with armA := .neg, flightA := some ⟨.dbl, .writePut 5#32 .neg⟩ })).map (·.putA) =
      some .pos := by decide

/-- R237: micro-step 5 compares with the `holdoff` of its own moment. -/
theorem test_second_read_of_holdoff :
    (after (microStep .a true 7#32
        { loose .dbl with holdoff := 9#32, flightA := some ⟨.dbl, .testElapsed 8#32 .pos⟩ })).map (·.flightA) =
      some (some ⟨.dbl, .testArmed 8#32 .pos⟩) ∧
    (after (microStep .a true 7#32
        { loose .dbl with holdoff := 8#32, flightA := some ⟨.dbl, .testElapsed 8#32 .pos⟩ })).map (·.flightA) =
      some (some ⟨.dbl, .readPut 8#32 .pos⟩) := by decide

/-- A `SUSPEND` and a read issued while the handler of A has only its stamp left. -/
def suspending : State :=
  { loose .dbl with
    flightA := some ⟨.dbl, .stamp 5#32⟩
    input := [.op 0xA000000000#40, .op 0x6000000000#40, .micro .a true 7#32] }

/-- R233: the handler runs to its end first, the `SUSPEND` and the read behind it keeping their places. -/
theorem test_suspend_lets_the_handler_end :
    after (step suspending) =
      some { suspending with
        flightA := none
        lastA := 5#32
        input := [.op 0xA000000000#40, .op 0x6000000000#40] } := by decide

/-- R233: then the `SUSPEND` acts. -/
theorem test_suspend_then_acts :
    (after (step { suspending with flightA := none, input := [.op 0xA000000000#40, .op 0x6000000000#40] })).map
      (fun t => (t.hold, t.outcome, t.input)) = some (true, .done, [.op 0x6000000000#40]) := by decide

/-! ## Witnesses: concrete states and operands that meet the hypotheses of the obligation named -/

/-- Both channels armed positive in mode `m`, at `holdoff` 0. -/
def armed (m : Mode) : State := { base m with armA := .pos, armB := .pos }

/-- Each channel's prediction is due: disarmed, `put` set, exactly `holdoff` since its last edge at `t = 3000`. -/
def due (m : Mode) : State :=
  { base m with holdoff := 1000#32, putA := .pos, putB := .neg, lastA := 2000#32, lastB := 2000#32 }

/-- Masked, then detached, variants of a state. -/
def masked (s : State) : State := { s with hold := true }
def detached (s : State) : State := { s with att := false }

theorem test_witness_DecodeOfEncodeIsTheOperation :
    (Instr.edgeADbl true 0xFFFFFFFF#32).wf .dbl .b8 = true ∧ (Instr.edgeBQuad false 0#32).wf .quad .b32 = true ∧
      (Instr.readBeat 3#2).wf .std .b8 = true ∧ (Instr.readBeat 0#2).wf .std .b32 = true := by decide

theorem test_witness_AcceptedWordIsAnEncoding :
    decode .std .b16 0xC100000000#40 = .ok (.readBeat 1#2) ∧ decode .dbl .b8 0x21FFFFFFFF#40 = .ok (.edgeBDbl true 0xFFFFFFFF#32) :=
  ⟨rfl, rfl⟩

theorem test_witness_DecoderAcceptsExactlyTheOpcodeTable :
    decode .std .b8 0x820000000F#40 = .ok (.construct .quad true true true true) ∧
      matchesRow 0x830000000C#40 (0x8000000000#40, 0xFCFFFFFFF0#40) = true ∧
      decode .std .b8 0x830000000C#40 = .error .modeCode := ⟨rfl, by decide, rfl⟩

/-- One state for each way to be reserved: no row, `m = 0b11`, the first beat index out of range. -/
theorem test_witness_ReservedWordIsRefused :
    (∀ row ∈ opcodeRows, matchesRow 0x1200000000#40 row = false) ∧
    (opField 0x830000000C#40 = 0x8#4 ∧ (auxField 0x830000000C#40).extractLsb' 0 2 = 0b11#2) ∧
    (opField 0xC200000000#40 = 0xC#4 ∧ beatCount .b16 ≤ ((auxField 0xC200000000#40).extractLsb' 0 2).toNat) ∧
    (issued 0x1200000000#40 State.reset).input = .op 0x1200000000#40 :: [] :=
  ⟨by simp [opcodeRows, matchesRow], by decide, by decide, rfl⟩

/-- Performed (a `SUSPEND` with nothing in flight), held for a handler in flight, and nothing in flight. -/
theorem test_witness_StepPerformsTheDecodedOperation :
    ((issued 0xA000000000#40 State.reset).input = .op 0xA000000000#40 :: [] ∧
      decode State.reset.mode State.reset.cfg.busW 0xA000000000#40 = .ok .suspend) ∧
    waitsForFlight .suspend State.reset = false ∧
    waitsForFlight (.edgeBStd true 7#32) { loose .std with flightB := some ⟨.std, .inputT⟩ } = true ∧
    decode (loose .std).mode (loose .std).cfg.busW 0x2100000007#40 = .ok (.edgeBStd true 7#32) ∧
    Quiet State.reset ∧ decode State.reset.mode State.reset.cfg.busW (wordOfTable 40 0xA000000000) = .ok .suspend :=
  ⟨⟨rfl, rfl⟩, rfl, rfl, rfl, ⟨rfl, rfl⟩, rfl⟩

/-- A well-formed operation; an accepted word with nothing in flight, and one with a handler in flight on a machine of the refinement. -/
theorem test_witness_NoOperationIsFatal :
    (Instr.readBeat 3#2).wf (base .std).mode (base .std).cfg.busW = true ∧
    ((base .std).cfg.handlerAtomic = true → Quiet (base .std)) ∧
    (suspending.cfg.handlerAtomic = true → Quiet suspending) ∧
    suspending.input = .op 0xA000000000#40 :: [.op 0x6000000000#40, .micro .a true 7#32] ∧
    decode suspending.mode suspending.cfg.busW 0xA000000000#40 = .ok .suspend :=
  ⟨by decide, fun _ => ⟨rfl, rfl⟩, fun h => absurd h (by decide), rfl, rfl⟩

theorem test_witness_OnlyReservedWordsAreRefused :
    (issued 0x3000000000#40 State.reset).cfg.handlerAtomic = true ∧ Quiet (issued 0x3000000000#40 State.reset) ∧
      step (issued 0x3000000000#40 State.reset) = .refused (.reservedWord .opcode) ∧
      step { State.reset with input := [.startHandler .a] } = .refused .handlersAreAtomic := ⟨rfl, ⟨rfl, rfl⟩, rfl, rfl⟩

theorem test_witness_ResetIsTheResultOfAConstruct : missed.cfg = Params.spec ∧ Quiet missed := ⟨rfl, rfl, rfl⟩

theorem test_witness_StepKeepsTheInvariant :
    Inv (issued 0x11000000C8#40 (armed .quad)) ∧
      ∃ t, step (issued 0x11000000C8#40 (armed .quad)) = .next t ∧ t.counter = 1#32 :=
  ⟨⟨fun _ => ⟨rfl, rfl⟩, fun _ => ⟨rfl, rfl⟩, fun _ => ⟨rfl, rfl⟩, fun _ _ => rfl, fun _ h => absurd h (by decide)⟩, _, rfl, rfl⟩

/-- An ordinary event, one taken from behind a waiting `SUSPEND`, and no event. -/
theorem test_witness_OutputsOnlyGrow :
    (∃ t, step (issued 0x11000000C8#40 (armed .quad)) = .next t ∧ t.notifies = [1#32]) ∧
      (∃ t, step suspending = .next t ∧ t.input = [.op 0xA000000000#40, .op 0x6000000000#40]) ∧
      (∃ t, step (armed .quad) = .next t) := ⟨⟨_, rfl, rfl⟩, ⟨_, rfl, rfl⟩, ⟨_, rfl⟩⟩

/-- Masked; detached but not masked; neither. -/
theorem test_witness_EdgeGates :
    (masked (base .dbl)).hold = true ∧
      ((detached (base .dbl)).hold = false ∧ (detached (base .dbl)).att = false) ∧
      ((base .dbl).hold = false ∧ (base .dbl).att = true) := by decide

theorem test_witness_EdgeRowOfAnotherModeIsRefused :
    (Instr.edgeAQuad true 7#32).edgeOf = some (.a, .quad) ∧ (base .std).mode ≠ .quad := by decide

/-- The three clauses of the edge statements of one mode: performed, masked, detached. -/
theorem test_witness_gates_of_the_edge_statements :
    ∀ m : Mode, ((armed m).mode = m ∧ (armed m).hold = false ∧ (armed m).att = true) ∧
      ((masked (armed m)).mode = m ∧ (masked (armed m)).hold = true) ∧
      ((detached (armed m)).mode = m ∧ (detached (armed m)).hold = false ∧ (detached (armed m)).att = false) := by
  intro m; cases m <;> decide

theorem test_witness_EdgeBStandard :
    (armed .std).mode = .std ∧ (armed .std).hold = false ∧ (armed .std).att = true := by decide

theorem test_witness_EdgeBDouble :
    (armed .dbl).mode = .dbl ∧ (armed .dbl).hold = false ∧ (armed .dbl).att = true := by decide

/-- `a` recovered at exactly the holdoff, and `a` as it stands one microsecond earlier. -/
theorem test_witness_EdgeAStandard :
    (due .std).mode = .std ∧ (due .std).hold = false ∧ (due .std).att = true ∧
      Tri.pos = (if (due .std).armA = .zero ∧ (due .std).holdoff ≠ 0#32 ∧
        (due .std).holdoff.toNat ≤ (3000#32 - (due .std).lastA).toNat then (due .std).putA else (due .std).armA) ∧
      Tri.zero = (if (due .std).armA = .zero ∧ (due .std).holdoff ≠ 0#32 ∧
        (due .std).holdoff.toNat ≤ (2999#32 - (due .std).lastA).toNat then (due .std).putA else (due .std).armA) := by decide

theorem test_witness_EdgeADouble :
    (due .dbl).mode = .dbl ∧ (due .dbl).hold = false ∧ (due .dbl).att = true ∧
      Tri.pos = (if (due .dbl).armA = .zero ∧ (due .dbl).holdoff ≠ 0#32 ∧
        (due .dbl).holdoff.toNat ≤ (3000#32 - (due .dbl).lastA).toNat then (due .dbl).putA else (due .dbl).armA) := by decide

theorem test_witness_EdgeAQuadruple :
    (due .quad).mode = .quad ∧ (due .quad).hold = false ∧ (due .quad).att = true ∧
      Tri.pos = (if (due .quad).armA = .zero ∧ (due .quad).holdoff ≠ 0#32 ∧
        (due .quad).holdoff.toNat ≤ (3000#32 - (due .quad).lastA).toNat then (due .quad).putA else (due .quad).armA) := by decide

theorem test_witness_EdgeBQuadruple :
    (due .quad).mode = .quad ∧ (due .quad).hold = false ∧ (due .quad).att = true ∧
      Tri.neg = (if (due .quad).armB = .zero ∧ (due .quad).holdoff ≠ 0#32 ∧
        (due .quad).holdoff.toNat ≤ (3000#32 - (due .quad).lastB).toNat then (due .quad).putB else (due .quad).armB) := by decide

/-- A held edge, and an operation that is done while masked. -/
theorem test_witness_OnlyMaskedEdgesAreHeld :
    (∃ t, exec (.edgeADbl true 7#32) (masked (armed .dbl)) = .next t ∧ t.outcome = .held) ∧
      (∃ t, exec .readPosition (masked (armed .dbl)) = .next t ∧ t.outcome = .done) := ⟨⟨_, rfl, rfl⟩, ⟨_, rfl, rfl⟩⟩

/-- Each clause: a `CONSTRUCT` that changes the mode, and an edge on detached handlers. -/
theorem test_witness_OnlyConstructChangesModeOrValidityOrReattaches :
    (∃ t, step (issued 0x810000000D#40 (detached (armed .quad))) = .next t ∧ t.mode = .dbl ∧ t.att = true) ∧
      (∃ t, step (issued 0x11000000C8#40 (detached (armed .quad))) = .next t ∧ t.att = false) := ⟨⟨_, rfl, rfl, rfl⟩, ⟨_, rfl, rfl⟩⟩

/-- An edge that counts, and an operation that is no edge and no `CONSTRUCT`. -/
theorem test_witness_CounterMovesOnlyInHandlersByAtMostOne :
    (∃ t, exec (.edgeBQuad true 7#32) (armed .quad) = .next t ∧ t.counter = 0xFFFFFFFF#32) ∧
      (Instr.edgeBQuad true 7#32).edgeOf.isSome = true ∧
    (∃ t, exec (.setHoldoff 7#32) (armed .quad) = .next t) ∧ (Instr.setHoldoff 7#32).edgeOf = none ∧
      ∀ m lvlA lvlB vA vB, Instr.setHoldoff 7#32 ≠ .construct m lvlA lvlB vA vB :=
  ⟨⟨_, rfl, rfl⟩, rfl, ⟨_, rfl⟩, rfl, fun _ _ _ _ _ h => by cases h⟩

/-- Each of the three clauses: no count, a count, a `CONSTRUCT`. -/
theorem test_witness_OneNotifyPerCount :
    (∃ t, exec (.edgeBDbl true 7#32) (armed .dbl) = .next t ∧ t.notifies = []) ∧
    (∃ t, exec (.edgeADbl true 7#32) (armed .dbl) = .next t ∧ t.notifies = [1#32]) ∧
    (∃ t, exec (.construct .dbl true true true true) { armed .dbl with counter := 7#32 } = .next t ∧ t.counter = 0#32) :=
  ⟨⟨_, rfl, rfl⟩, ⟨_, rfl, rfl⟩, ⟨_, rfl, rfl⟩⟩

theorem test_witness_PerformedHandlerStamps :
    ((due .std).hold = false ∧ (due .std).att = true) ∧ ((detached (due .std)).hold = false ∧ (detached (due .std)).att = false) := by
  decide

/-- Exactly the holdoff, and one microsecond less. -/
theorem test_witness_RecoveryTakesThePrediction :
    (policy (due .quad).mode .b).resolves = true ∧ (due .quad).hold = false ∧ (due .quad).att = true ∧
      ((due .quad).arm .b = .zero ∧ (due .quad).holdoff ≠ 0#32 ∧
        (due .quad).holdoff.toNat ≤ (3000#32 - (due .quad).last .b).toNat) ∧
      ¬ ((due .quad).arm .b = .zero ∧ (due .quad).holdoff ≠ 0#32 ∧
        (due .quad).holdoff.toNat ≤ (2999#32 - (due .quad).last .b).toNat) := by decide

theorem test_witness_HoldoffZeroDisablesRecovery :
    ∃ t, exec (.setHoldoff 0#32) (due .dbl) = .next t ∧ t.arm .a = .zero ∧ t.put .a = .pos := ⟨_, rfl, rfl, rfl⟩

theorem test_witness_BounceErasesThePrediction :
    (policy (due .dbl).mode .a).resolves = true ∧ (due .dbl).hold = false ∧ (due .dbl).att = true ∧ (due .dbl).arm .a = .zero ∧
      (2999#32 - (due .dbl).last .a).toNat < (due .dbl).holdoff.toNat := by decide

/-- Each `a` of the tables, in both modes and channels they cover. -/
theorem test_witness_DirectionTables :
    (∀ a : Tri, a = recoveredArm a .zero 0#32 5#32 0#32) ∧
      ((Channel.a = .a ∧ (armed .dbl).mode = .dbl ∨ (armed .dbl).mode = .quad) ∧ (armed .dbl).hold = false ∧
        (armed .dbl).att = true ∧ Tri.pos = recoveredArm ((armed .dbl).arm .a) ((armed .dbl).put .a) (armed .dbl).holdoff 7#32
          ((armed .dbl).last .a)) ∧
      ((Channel.b = .a ∧ (due .quad).mode = .dbl ∨ (due .quad).mode = .quad) ∧ (due .quad).hold = false ∧ (due .quad).att = true ∧
        Tri.neg = recoveredArm ((due .quad).arm .b) ((due .quad).put .b) (due .quad).holdoff 3000#32 ((due .quad).last .b)) := by
  refine ⟨?_, by decide, by decide⟩
  intro a; cases a <;> decide

theorem test_witness_ElapsedIsTheTimeModuloTheClock :
    4294967040 ≤ 4294968040 ∧ Shows 4294968040 0x2E8#32 ∧ Shows 4294967040 0xFFFFFF00#32 :=
  ⟨by omega, rfl, rfl⟩

theorem test_witness_CounterWrapsAtTheEnds :
    0x7FFFFFFE#32 ≠ 0x7FFFFFFF#32 ∧ 0x80000001#32 ≠ 0x80000000#32 := by decide

theorem test_witness_ReadBeatReturnsASlice :
    (3#2).toNat < beatCount .b8 ∧ beatCount .b16 ≤ (2#2).toNat ∧ (1#2).toNat < beatCount .b16 ∧
      beatCount .b32 ≤ (1#2).toNat ∧ State.reset.cfg.busW = .b8 ∧
      ({ State.reset with cfg := { Params.spec with busW := .b32 } } : State).cfg.busW = .b32 := by decide

/-- The largest and the smallest `data` of a `CONSTRUCT`. -/
theorem test_witness_ConstructWritesEveryElement :
    (0x0000000F#32).extractLsb' 4 28 = 0#28 ∧ (0x00000000#32).extractLsb' 4 28 = 0#28 := by decide

theorem test_witness_IsValidReturnsTheConjunction :
    (∀ m lvlA lvlB vA vB, Instr.detach ≠ .construct m lvlA lvlB vA vB) ∧ ∃ t, exec .detach (due .std) = .next t :=
  ⟨fun _ _ _ _ _ h => (by cases h), _, rfl⟩

/-- The second clause's premises, then the last one's. -/
theorem test_witness_DetachClearsAttOnly :
    (∀ m lvlA lvlB vA vB, Instr.resume ≠ .construct m lvlA lvlB vA vB) ∧ (detached (due .std)).att = false ∧
      (∃ t, exec .resume (detached (due .std)) = .next t) ∧ (due .std).hold = false :=
  ⟨fun _ _ _ _ _ h => (by cases h), rfl, ⟨_, rfl⟩, rfl⟩

theorem test_witness_ResumeReleasesEdges : (due .std).att = true := by decide

theorem test_witness_SuspendHoldsEdges :
    (Instr.readBeat 3#2).edgeOf = none ∧ (Instr.readBeat 3#2).wf (due .std).mode (due .std).cfg.busW = true ∧
      Instr.resume.edgeOf = none ∧ Instr.resume.wf (due .std).mode (due .std).cfg.busW = true := by decide

theorem test_witness_ReadsHaveNoSideEffect :
    (∃ t, exec .readPosition (due .std) = .next t) ∧ (∃ t, exec .isValid (due .std) = .next t) ∧
      ∃ t, exec (.readBeat 3#2) (due .std) = .next t := ⟨⟨_, rfl⟩, ⟨_, rfl⟩, _, rfl⟩

/-- An element `EDGE_A.STD` does not write, and one it does not read but writes or leaves. -/
theorem test_witness_AccessMatrix :
    writes (.edgeAStd true 7#32) (.arm .b .pos) = false ∧ reads (.edgeAStd true 7#32) (.arm .b .pos) = false ∧
      reads (.edgeBStd true 7#32) (.arm .a .pos) = false ∧ writes (.edgeBStd true 7#32) (.arm .a .pos) = true ∧
      (∃ t, exec (.edgeAStd true 7#32) (armed .std) = .next t) ∧ Performed (.edgeAStd true 7#32) (armed .std) ∧
      Performed (.edgeBStd true 7#32) (armed .std) := ⟨rfl, rfl, rfl, rfl, ⟨_, rfl⟩, fun _ => ⟨rfl, rfl⟩, fun _ => ⟨rfl, rfl⟩⟩

theorem test_witness_InvalidDecoderIsInert :
    (true && false) = false ∧ Quiet missed ∧
      ∀ o ∈ [TraceOp.edge .a true 7#32, .resume, .readBeat 3#2, .isValid],
        (∀ n a b c d, o ≠ .construct n a b c d) ∧ (o.instr .quad).wf .quad missed.cfg.busW = true := by
  refine ⟨rfl, ⟨rfl, rfl⟩, ?_⟩
  intro o ho
  simp only [List.mem_cons, List.not_mem_nil, or_false] at ho
  rcases ho with rfl | rfl | rfl | rfl <;> exact ⟨fun _ _ _ _ _ h => (by cases h), by decide⟩

/-- A toggled first in `QUAD` from a state armed with the level being left; B first in `STD`, which needs no arming. -/
theorem test_witness_RotationCountsPerCycle :
    (armed .quad).hold = false ∧ (armed .quad).att = true ∧ Quiet (armed .quad) ∧
      ((policy (armed .quad).mode .a).resolves = true → (armed .quad).arm .a = sign true) ∧
      ((policy (base .std).mode .b).resolves = true → (base .std).arm .b = sign false) :=
  ⟨rfl, rfl, ⟨rfl, rfl⟩, fun _ => rfl, fun h => absurd h (by decide)⟩

theorem test_witness_ArmHoldsTheLevelBeingLeft :
    (armed .quad).hold = false ∧ (armed .quad).att = true ∧ Quiet (armed .quad) ∧
      (∀ q ∈ [Pseudo.toggleA 1#32, .toggleA 2#32, .toggleB 3#32], ∃ t, q = .toggleA t ∨ q = .toggleB t) ∧
      ((armed .quad).armA = .zero ∨ (armed .quad).armA = sign true) ∧
      ((armed .quad).mode = .quad → (armed .quad).armB = .zero ∨ (armed .quad).armB = sign true) := by
  refine ⟨rfl, rfl, ⟨rfl, rfl⟩, ?_, .inr rfl, fun _ => .inr rfl⟩
  intro q hq
  simp only [List.mem_cons, List.not_mem_nil, or_false] at hq
  rcases hq with rfl | rfl | rfl
  · exact ⟨_, .inl rfl⟩
  · exact ⟨_, .inl rfl⟩
  · exact ⟨_, .inr rfl⟩

/-- Both strategies of the accessor. -/
theorem test_witness_WrappedReadReturnsTheCounter :
    Quiet missed ∧ missed.cfg.nativeAtomic = false ∧
      ({ missed with cfg := { Params.spec with nativeAtomic := true } } : State).cfg.nativeAtomic = true :=
  ⟨⟨rfl, rfl⟩, rfl, rfl⟩

theorem test_witness_ResetStampIsUnobservable :
    Quiet (armed .dbl) ∧ (armed .dbl).put .a = .zero ∧ (armed .dbl).setLast .a 5#32 ≠ armed .dbl := by
  exact ⟨⟨rfl, rfl⟩, rfl, by decide⟩

theorem test_witness_AtomicEdgeIsAHandlerRun :
    (loose .quad).cfg.handlerAtomic = false ∧ (loose .quad).flight .b = none ∧ (loose .quad).hold = false ∧
      (loose .quad).att = true := by decide

/-- Each clause: masked, in flight, detached, free to begin; a whole edge that is held; an operation that is no edge; a `SUSPEND` with no micro-step
of the handler in flight behind it, and with one. -/
theorem test_witness_WhatWaitsForAHandler :
    ((loose .std).cfg.handlerAtomic = false ∧ (masked (loose .std)).hold = true ∧
      (({ loose .std with flightA := some ⟨.std, .inputT⟩ } : State).flight .a).isSome = true ∧
      (detached (loose .std)).hold = false ∧ (detached (loose .std)).flight .a = none ∧ (detached (loose .std)).att = false ∧
      (loose .std).hold = false ∧ (loose .std).flight .a = none ∧ (loose .std).att = true) ∧
    (({ loose .std with input := [.startHandler .a] } : State).input = .startHandler .a :: []) ∧
    ((issued (encode (edgeRow .a .std true 7#32)) (loose .std)).input = .op (encode (edgeRow .a .std true 7#32)) :: []) ∧
    Instr.suspend.edgeOf = none ∧
    (suspending.flight .a).isSome = true ∧ suspending.flight .b = none ∧
    suspending.input = .op 0xA000000000#40 :: ([.op 0x6000000000#40] ++ .micro .a true 7#32 :: []) ∧
    Event.micro .a true 7#32 ∉ [Event.op 0x6000000000#40, .micro .b true 7#32] := by decide

/-- One handler in flight, ended by its micro-step; the machine is then quiet. -/
theorem test_witness_SuspendActsAfterTheHandlersInFlight :
    (∃ v, Host.Core.run core 1 { suspending with input := [.micro .a true 7#32] ++ [.op 0x6000000000#40] } = .next v ∧ Quiet v ∧
      v.lastA = 5#32) ∧
    (loose .quad).cfg.handlerAtomic = false ∧
    (({ loose .quad with flightB := some ⟨.quad, .inputT⟩ } : State).flight .b).isSome = true :=
  ⟨⟨_, rfl, ⟨rfl, rfl⟩, rfl⟩, rfl, rfl⟩

theorem test_witness_MicroStepFrame :
    ∃ u, microStep .b true 7#32 { loose .quad with flightB := some ⟨.quad, .writeCounter 5#32 .pos 10#32⟩ } = .next u ∧
      u.counter = 11#32 := ⟨_, rfl, rfl⟩

/-- From each of the five micro-steps. -/
theorem test_witness_NonResolvingHandlerNeverCounts :
    Mode.std ≠ .quad ∧
      ∀ q ∈ [Micro.inputT, .inputLvl 5#32, .armOther 5#32 .pos, .disarm 5#32, .stamp 5#32],
        (after (microStep .b true 7#32 { loose .std with flightB := some ⟨.std, q⟩ })).isSome = true := by decide

end Sys2Proof.Tests
end

section
/-! PROOFS. The statements about the registers `counter` and `last` (10_state.md R35, R36): what any edge handler does to the two
registers, then what `exec` makes of it behind the gates. -/

namespace Sys2Proof.Machine

open Sys2Proof

/-! ## `counter` (R35) -/

/-- A wrapping addition of a `tri` moves a word by at most one (R9, R21). -/
theorem add32_eq_self_or_add_one_or_sub_one (c : Word) (d : Tri) :
    add32 c d = c ∨ add32 c d = c + 1#32 ∨ add32 c d = c - 1#32 := by
  cases d with
  | zero => exact .inl (add32_zero c)
  | pos => exact .inr (.inl (add32_pos c))
  | neg => exact .inr (.inr (add32_neg c))

/-- A count rule that may or may not fire adds one `tri`: its direction, or zero. -/
theorem exists_ite_eq_add32 (p : Prop) [Decidable p] (c : Word) (d e : Tri) :
    ∃ f, (if p then add32 c d else add32 c e) = add32 c f :=
  ⟨if p then d else e, (apply_ite (add32 c) p d e).symm⟩

/-- A handler runs its count step at most once, so `counter` moves by one `tri` (R116). -/
theorem handlerOf_counter (x : Channel) (m : Mode) (lvl : Bool) (t : Stamp) (s : State) :
    ∃ d, (handlerOf x m lvl t s).counter = add32 s.counter d := by
  have unchanged : s.counter = add32 s.counter .zero := (add32_zero s.counter).symm
  have doubleA : ∃ d, (handlerADbl lvl t s).counter = add32 s.counter d := by
    simpa [handlerADbl_eq] using exists_ite_eq_add32 _ s.counter .zero _
  match x, m with
  | .a, .std => simpa [handlerOf, handlerAStd_eq] using exists_ite_eq_add32 _ s.counter _ .zero
  | .a, .dbl => exact doubleA
  | .a, .quad => simpa [handlerOf, handlerAQuad_eq] using doubleA
  | .b, .std | .b, .dbl => exact ⟨.zero, unchanged⟩
  | .b, .quad => simpa [handlerOf, handlerBQuad_eq] using exists_ite_eq_add32 _ s.counter .zero _

/-- An edge row moves `counter` by one `tri`; held or ignored, by zero. -/
theorem exec_edgeRow_counter {x : Channel} {m : Mode} {lvl : Bool} {tm : Stamp} {s t : State}
    (h : exec (edgeRow x m lvl tm) s = .next t) : ∃ d, t.counter = add32 s.counter d := by
  rw [exec_edgeRow] at h
  obtain ⟨-, ⟨-, rfl⟩ | ⟨-, -, rfl⟩ | ⟨-, -, rfl⟩⟩ := edgeGate_next h
  · exact ⟨.zero, (add32_zero _).symm⟩
  · exact ⟨.zero, (add32_zero _).symm⟩
  · exact handlerOf_counter x m lvl tm s

/-- Only edge rows and `CONSTRUCT` write `counter`. -/
theorem exec_counter_of_edgeOf_eq_none {i : Instr} {s t : State} (h : exec i s = .next t) (he : i.edgeOf = none)
    (hc : ∀ m lvlA lvlB vA vB, i ≠ .construct m lvlA lvlB vA vB) : t.counter = s.counter := by
  cases i with
  | edgeAStd _ _ | edgeADbl _ _ | edgeAQuad _ _ | edgeBStd _ _ | edgeBDbl _ _ | edgeBQuad _ _ => cases he
  | construct m lvlA lvlB vA vB => exact absurd rfl (hc m lvlA lvlB vA vB)
  | readBeat k =>
    simp only [exec, execReadBeat] at h
    split at h
    · rw [answer_eq_next] at h; rw [h]
    · cases h
  | readPosition | isValid =>
    simp only [exec, execReadPosition, execIsValid, answer_eq_next] at h; rw [h]
  | nop | setHoldoff _ | setListener _ | detach | suspend | resume =>
    simp only [exec, execNop, execSetHoldoff, execSetListener, execDetach, execSuspend, execResume, done_eq_next] at h
    rw [h]

/-! ## `last` (R36) -/

/-- The last step of every handler is the stamp (R119). -/
theorem handlerOf_eq_stamp (x : Channel) (m : Mode) (lvl : Bool) (t : Stamp) (s : State) :
    ∃ u, handlerOf x m lvl t s = stamp x t u := by
  cases x <;> cases m <;> exact ⟨_, rfl⟩

@[simp] theorem handlerOf_last (x : Channel) (m : Mode) (lvl : Bool) (t : Stamp) (s : State) :
    (handlerOf x m lvl t s).last x = t := by
  obtain ⟨u, hu⟩ := handlerOf_eq_stamp x m lvl t s
  rw [hu]
  exact u.setLast_last_self x t

@[simp] theorem handlerOf_last_opp (x : Channel) (m : Mode) (lvl : Bool) (t : Stamp) (s : State) :
    (handlerOf x m lvl t s).last (opp x) = s.last (opp x) := by
  obtain ⟨-, -, -, -, -, -, -, hlast, -⟩ := handlerOf_frame x m lvl t s
  exact hlast

/-- The record of an operation's outcome is no stamp. -/
@[simp] theorem State.withOutcome_last (s : State) (o : OpOutcome) (x : Channel) :
    ({ s with outcome := o } : State).last x = s.last x := rfl

/-! ## The statements -/

/-- Settles O26: an edge row adds one `tri` to `counter`, and no other row but `CONSTRUCT` writes it. -/
theorem counterMovesOnlyInHandlersByAtMostOne : Obligations.CounterMovesOnlyInHandlersByAtMostOne := by
  intro i s t h
  refine ⟨fun he => ?_, exec_counter_of_edgeOf_eq_none h⟩
  obtain ⟨⟨x, m⟩, hx⟩ := Option.isSome_iff_exists.1 he
  obtain ⟨lvl, tm, rfl⟩ := edgeOf_eq_some hx
  obtain ⟨d, hd⟩ := exec_edgeRow_counter h
  rw [hd]
  exact add32_eq_self_or_add_one_or_sub_one s.counter d

/-- Settles O28: behind open gates the handler runs and ends with its stamp; an ignored edge only records its outcome. -/
theorem performedHandlerStamps : Obligations.PerformedHandlerStamps := by
  intro x lvl t s hhold
  rw [exec_edgeRow]
  refine ⟨fun hatt => ⟨_, edgeGate_performed rfl hhold hatt, ?_, ?_⟩, fun hatt => ⟨_, edgeGate_ignored rfl hhold hatt, ?_, ?_⟩⟩
  · exact handlerOf_last x s.mode lvl t s
  · exact handlerOf_last_opp x s.mode lvl t s
  · exact s.withOutcome_last .done x
  · exact s.withOutcome_last .done (opp x)

end Sys2Proof.Machine
end

section
/-! PROOFS. The statement about reserved words (30_encoding.md R93): an accepted word is the encoding of the operation it decodes to, so
it has a row of the opcode table; what is not accepted is refused by the step that issues it. -/

namespace Sys2Proof

/-! ## An accepted word is its operation's encoding -/

/-- A word with these fields. -/
theorem opWord_eq_of_fields {w : OpWord} {op aux : BitVec 4} {d : BitVec 32} (hop : opField w = op) (haux : auxField w = aux)
    (hd : dataField w = d) : opWord op aux d = w := by
  rw [← hop, ← haux, ← hd, opWord_fields]

theorem encode_edgeARow (m : Mode) (lvl : Bool) (t : Stamp) : encode (edgeARow m lvl t) = opWord 0x1#4 (auxOfBit lvl) t := by
  cases m <;> rfl

theorem encode_edgeBRow (m : Mode) (lvl : Bool) (t : Stamp) : encode (edgeBRow m lvl t) = opWord 0x2#4 (auxOfBit lvl) t := by
  cases m <;> rfl

/-- Format `N`: a word with the operation's `op` is its encoding. -/
theorem encode_of_formatN_ok {w : OpWord} {i j : Instr} {op : BitVec 4} (h : formatN w i = .ok j) (hop : opField w = op)
    (hi : encode i = opWord op 0#4 0#32) : encode j = w := by
  obtain ⟨rfl, haux, hd⟩ := formatN_ok h
  rw [hi, opWord_eq_of_fields hop haux hd]

/-- Format `E`, in the same way. -/
theorem encode_of_formatE_ok {w : OpWord} {row : Bool → Stamp → Instr} {j : Instr} {op : BitVec 4} (h : formatE w row = .ok j)
    (hop : opField w = op) (hrow : ∀ lvl t, encode (row lvl t) = opWord op (auxOfBit lvl) t) : encode j = w := by
  obtain ⟨lvl, rfl, haux⟩ := formatE_ok h
  rw [hrow, opWord_eq_of_fields hop haux rfl]

/-- No bit of an accepted word is dropped: the operation's encoding is the word (R88 to R93). -/
theorem encode_of_decode_ok {m : Mode} {b : BusW} {w : OpWord} {i : Instr} (h : decode m b w = .ok i) : encode i = w := by
  have opcode : ∀ op : BitVec 4, (opField w).toNat = op.toNat → opField w = op := fun _ => BitVec.eq_of_toNat_eq
  unfold decode at h
  split at h
  case h_1 hop => exact encode_of_formatN_ok h (opcode 0x0#4 hop) rfl
  case h_2 hop => exact encode_of_formatE_ok h (opcode 0x1#4 hop) (encode_edgeARow m)
  case h_3 hop => exact encode_of_formatE_ok h (opcode 0x2#4 hop) (encode_edgeBRow m)
  case h_4 hop =>
    obtain ⟨rfl, haux⟩ := formatH_ok h
    exact opWord_eq_of_fields (opcode 0x4#4 hop) haux rfl
  case h_5 hop =>
    obtain ⟨en, rfl, haux, hd⟩ := formatL_ok h
    exact opWord_eq_of_fields (opcode 0x5#4 hop) haux hd
  case h_6 hop => exact encode_of_formatN_ok h (opcode 0x6#4 hop) rfl
  case h_7 hop => exact encode_of_formatN_ok h (opcode 0x7#4 hop) rfl
  case h_8 hop =>
    obtain ⟨n, lvlA, lvlB, vA, vB, rfl, haux, hd⟩ := formatC_ok h
    exact opWord_eq_of_fields (opcode 0x8#4 hop) haux hd
  case h_9 hop => exact encode_of_formatN_ok h (opcode 0x9#4 hop) rfl
  case h_10 hop => exact encode_of_formatN_ok h (opcode 0xA#4 hop) rfl
  case h_11 hop => exact encode_of_formatN_ok h (opcode 0xB#4 hop) rfl
  case h_12 hop =>
    obtain ⟨k, rfl, haux, hd, -⟩ := formatK_ok h
    exact opWord_eq_of_fields (opcode 0xC#4 hop) haux hd
  case h_13 => cases h

/-! ## The rows of the opcode table (R90) -/

theorem matchesRow_encode (i : Instr) : matchesRow (encode i) (tableRow i) = true :=
  match i with
  | .nop => Laws.TableRow.nop
  | .edgeAStd lvl t => Laws.TableRow.edgeAStd lvl t
  | .edgeADbl lvl t => Laws.TableRow.edgeADbl lvl t
  | .edgeAQuad lvl t => Laws.TableRow.edgeAQuad lvl t
  | .edgeBStd lvl t => Laws.TableRow.edgeBStd lvl t
  | .edgeBDbl lvl t => Laws.TableRow.edgeBDbl lvl t
  | .edgeBQuad lvl t => Laws.TableRow.edgeBQuad lvl t
  | .setHoldoff imm => Laws.TableRow.setHoldoff imm
  | .setListener en => Laws.TableRow.setListener en
  | .readPosition => Laws.TableRow.readPosition
  | .isValid => Laws.TableRow.isValid
  | .construct m lvlA lvlB vA vB => Laws.TableRow.construct m lvlA lvlB vA vB
  | .detach => Laws.TableRow.detach
  | .suspend => Laws.TableRow.suspend
  | .resume => Laws.TableRow.resume
  | .readBeat k => Laws.TableRow.readBeat k

/-- The distinct rows are the operations' rows. -/
theorem tableRow_mem_opcodeRows (i : Instr) : tableRow i ∈ opcodeRows := by
  cases i <;> simp [tableRow, opcodeRows]

/-- The operation an accepted word decodes to has a row the word matches. -/
theorem matchesRow_of_decode_ok {m : Mode} {b : BusW} {w : OpWord} {i : Instr} (h : decode m b w = .ok i) :
    matchesRow w (tableRow i) = true := by
  rw [← encode_of_decode_ok h]
  exact matchesRow_encode i

/-! ## The operands R93 excludes -/

theorem decode_of_opField_construct {w : OpWord} (m : Mode) (b : BusW) (hop : opField w = 0x8#4) : decode m b w = formatC w := by
  rw [decode, hop]; rfl

theorem decode_of_opField_readBeat {w : OpWord} (m : Mode) (b : BusW) (hop : opField w = 0xC#4) : decode m b w = formatK b w := by
  rw [decode, hop]; rfl

/-- `0b11` is the code of no mode (R84). -/
theorem modeCode_ne_reserved (m : Mode) : modeCode m ≠ 0b11#2 := by
  cases m <;> decide

/-- An accepted `CONSTRUCT` names a mode. -/
theorem constructMode_of_decode_ok {m : Mode} {b : BusW} {w : OpWord} {i : Instr} (h : decode m b w = .ok i)
    (hop : opField w = 0x8#4) : (auxField w).extractLsb' 0 2 ≠ 0b11#2 := by
  rw [decode_of_opField_construct m b hop] at h
  obtain ⟨n, -, -, -, -, -, haux, -⟩ := formatC_ok h
  rw [haux, auxOfPair_pair]
  exact modeCode_ne_reserved n

/-- An accepted `READ_BEAT` names a beat of the counter. -/
theorem beatIndex_of_decode_ok {m : Mode} {b : BusW} {w : OpWord} {i : Instr} (h : decode m b w = .ok i)
    (hop : opField w = 0xC#4) : ((auxField w).extractLsb' 0 2).toNat < beatCount b := by
  rw [decode_of_opField_readBeat m b hop] at h
  obtain ⟨k, -, haux, -, hk⟩ := formatK_ok h
  rwa [haux, auxOfPair_pair]

/-- The three ways to be reserved (R93). -/
theorem decode_ne_ok_of_reserved {b : BusW} {w : OpWord}
    (h : (∀ row ∈ opcodeRows, matchesRow w row = false) ∨
      (opField w = 0x8#4 ∧ (auxField w).extractLsb' 0 2 = 0b11#2) ∨
      (opField w = 0xC#4 ∧ beatCount b ≤ ((auxField w).extractLsb' 0 2).toNat)) (m : Mode) (i : Instr) :
    decode m b w ≠ .ok i := by
  intro hok
  obtain hrow | ⟨hop, hm⟩ | ⟨hop, hk⟩ := h
  · have hmiss := hrow _ (tableRow_mem_opcodeRows i)
    rw [matchesRow_of_decode_ok hok] at hmiss
    cases hmiss
  · exact constructMode_of_decode_ok hok hop hm
  · exact absurd (beatIndex_of_decode_ok hok hop) (Nat.not_lt.2 hk)

end Sys2Proof

namespace Sys2Proof.Machine

open Sys2Proof

/-! ## The statement -/

/-- A word that is not accepted is no `SUSPEND` that waits, so the step issues it and refuses it, whatever is in flight. -/
theorem step_reservedWord {s : State} {w : OpWord} {rest : List Event} {why : Reserved} (hin : s.input = .op w :: rest)
    (hw : decode s.mode s.cfg.busW w = .error why) : step s = .refused (.reservedWord why) := by
  have hwaits : suspendWaits (.op w) s = false := by simp [suspendWaits, hw]
  rw [step_event hin hwaits]
  exact issueWord_error hw

/-- Settles O4: the decoder accepts none of these words, and a step refuses every word it does not accept. -/
theorem reservedWordIsRefused : Obligations.ReservedWordIsRefused := by
  intro s w rest hin hres
  cases hdec : decode s.mode s.cfg.busW w with
  | ok i => exact absurd hdec (decode_ne_ok_of_reserved hres s.mode i)
  | error why => exact ⟨why, step_reservedWord hin hdec⟩

end Sys2Proof.Machine
end

section
/-! PROOFS. The statements about the shared steps of an edge (40_edge_classification.md): the difference of two clock values (R115), the
recover step (R114), and the gates before the one parameterised handler (R120, R121). -/

namespace Sys2Proof.Machine

open Sys2Proof

/-! ## elapsed (R115) -/

/-- Unsigned subtraction of two clock values is wraparound-safe. -/
theorem elapsed_toNat_of_shows {n k : Nat} {t l : Stamp} (hnk : n ≤ k) (ht : Safety.Shows k t) (hl : Safety.Shows n l) :
    (elapsed t l).toNat = (k - n) % 2 ^ 32 := by
  rw [elapsed, ht, hl, BitVec.toNat_sub, BitVec.toNat_ofNat, BitVec.toNat_ofNat]
  omega

/-- Settles O33: the general rule, and the three worked values by evaluation. -/
theorem elapsedIsTheTimeModuloTheClock : Obligations.ElapsedIsTheTimeModuloTheClock :=
  ⟨fun _ _ _ _ => elapsed_toNat_of_shows, rfl, rfl, rfl⟩

/-! ## recover (R114) -/

theorem recoveredArm_of_due {arm put : Tri} {h t l : Stamp} (hdue : arm = .zero ∧ h ≠ 0#32 ∧ h.toNat ≤ (t - l).toNat) :
    recoveredArm arm put h t l = put :=
  if_pos ((recoveryDue_iff arm h t l).2 hdue)

theorem recoveredArm_of_not_due {arm put : Tri} {h t l : Stamp} (hdue : ¬ (arm = .zero ∧ h ≠ 0#32 ∧ h.toNat ≤ (t - l).toNat)) :
    recoveredArm arm put h t l = arm :=
  if_neg (mt (recoveryDue_iff arm h t l).1 hdue)

/-- A channel already armed with its prediction recovers to the same value. -/
theorem recoveredArm_self (v : Tri) (h t l : Stamp) : recoveredArm v v h t l = v := ite_self v

/-- Writing a register's own value is no write. -/
theorem State.setArm_arm (s : State) (x : Channel) : s.setArm x (s.arm x) = s := by cases x <;> rfl

theorem State.setPut_put (s : State) (x : Channel) : s.setPut x (s.put x) = s := by cases x <;> rfl

section
variable {x : Channel} {m : Mode} {t : Stamp} {s : State}

/-- A resolving handler reads `arm[X]`, `put[X]` and `holdoff` through the recovered arm only (R114), and of the three it leaves `holdoff`
as it was. -/
theorem handlerOf_of_recoveredArm_eq (hres : (policy m x).resolves = true) (lvl : Bool) {a p : Tri} {h : Stamp}
    (heq : recoveredArm a p h t (s.last x) = recoveredArm (s.arm x) (s.put x) s.holdoff t (s.last x)) :
    handlerOf x m lvl t { (s.setArm x a).setPut x p with holdoff := h } = { handlerOf x m lvl t s with holdoff := h } := by
  cases x with
  | a =>
    simp only [State.arm_a, State.put_a, State.last_a] at heq
    cases m <;> simp [handlerOf, handlerAStd_eq, handlerADbl_eq, handlerAQuad_eq, heq]
  | b =>
    simp only [State.arm_b, State.put_b, State.last_b] at heq
    cases m with
    | std | dbl => cases hres
    | quad => simp [handlerOf, handlerBQuad_eq, heq]

/-- The case of that where `holdoff` is what it was. -/
theorem handlerOf_setArm_setPut (hres : (policy m x).resolves = true) (lvl : Bool) {a p : Tri}
    (heq : recoveredArm a p s.holdoff t (s.last x) = recoveredArm (s.arm x) (s.put x) s.holdoff t (s.last x)) :
    handlerOf x m lvl t ((s.setArm x a).setPut x p) = handlerOf x m lvl t s := by
  obtain ⟨-, ⟨hkept, -, -⟩, -⟩ := handlerOf_frame x m lvl t s
  have h := handlerOf_of_recoveredArm_eq hres lvl heq
  have hsame : ({ (s.setArm x a).setPut x p with holdoff := s.holdoff } : State) = (s.setArm x a).setPut x p := by
    cases x <;> rfl
  rwa [hsame, ← hkept] at h

/-- When recovery is due, the prediction acts as the arm. -/
theorem handlerOf_setArm_put (hres : (policy m x).resolves = true) (lvl : Bool)
    (hdue : s.arm x = .zero ∧ s.holdoff ≠ 0#32 ∧ s.holdoff.toNat ≤ (t - s.last x).toNat) :
    handlerOf x m lvl t (s.setArm x (s.put x)) = handlerOf x m lvl t s := by
  rw [← (s.setArm x (s.put x)).setPut_put x, State.setArm_put]
  exact handlerOf_setArm_setPut hres lvl ((recoveredArm_self _ _ _ _).trans (recoveredArm_of_due hdue).symm)

section
variable (hdue : ¬ (s.arm x = .zero ∧ s.holdoff ≠ 0#32 ∧ s.holdoff.toNat ≤ (t - s.last x).toNat))
include hdue

/-- When recovery is not due, the prediction is not read. -/
theorem handlerOf_setPut_zero (hres : (policy m x).resolves = true) (lvl : Bool) :
    handlerOf x m lvl t (s.setPut x .zero) = handlerOf x m lvl t s := by
  have h := handlerOf_setArm_setPut hres lvl ((recoveredArm_put_zero _ _ _ _).trans (recoveredArm_of_not_due hdue).symm)
  rwa [State.setArm_arm] at h

/-- When recovery is not due, it may as well be disabled. -/
theorem handlerOf_holdoff_zero (hres : (policy m x).resolves = true) (lvl : Bool) :
    handlerOf x m lvl t { s with holdoff := 0#32 } = { handlerOf x m lvl t s with holdoff := 0#32 } := by
  have h := handlerOf_of_recoveredArm_eq hres lvl
    ((recoveredArm_holdoff_zero _ (s.put x) _ _).trans (recoveredArm_of_not_due hdue).symm)
  rwa [State.setArm_arm, State.setPut_put] at h

end
end

/-- Behind open gates an edge row is its handler (R121). -/
theorem exec_edgeRow_performed {m : Mode} {s : State} (hm : s.mode = m) (hh : s.hold = false) (ha : s.att = true) (x : Channel)
    (lvl : Bool) (t : Stamp) : exec (edgeRow x m lvl t) s = .next { handlerOf x m lvl t s with outcome := .done } := by
  rw [exec_edgeRow, edgeGate_performed hm hh ha]

/-- Settles O29: the gates do not see `arm[X]`, `put[X]` and `holdoff`, and the handler sees them through the recovered arm. -/
theorem recoveryTakesThePrediction : Obligations.RecoveryTakesThePrediction := by
  intro x lvl t s hres hhold hatt
  have hs := exec_edgeRow_performed rfl hhold hatt x lvl t
  refine ⟨fun harm hoff helapsed => ⟨_, hs, ?_⟩, fun hdue => ⟨_, hs, ?_, ?_⟩⟩
  · rw [exec_edgeRow_performed (by simp) (by simpa) (by simpa), handlerOf_setArm_put hres lvl ⟨harm, hoff, helapsed⟩]
  · rw [exec_edgeRow_performed (by simp) (by simpa) (by simpa), handlerOf_setPut_zero hdue hres lvl]
  · rw [exec_edgeRow_performed (s := { s with holdoff := 0#32 }) rfl hhold hatt, handlerOf_holdoff_zero hdue hres lvl]

/-! ## The parameterised handler (R120) behind the gates (R121) -/

/-- The resolve part with the policy of `EDGE_A.STD`. -/
theorem edgeResolve_std_a (sg : Tri) (t : Stamp) (s : State) :
    edgeResolve (policy .std .a) .a sg t s = predict .a (countWhenPositive .a sg (recover .a t s)) := by
  simp only [edgeResolve, countWhenPositive, policy]
  cases (recover .a t s).arm .a with
  | pos => cases sg <;> rfl
  | zero | neg => simp

/-- The resolve part that counts both polarities with the convention of channel A. -/
theorem edgeResolve_convA {p : Policy} (hneg : p.countNeg = true) (hconv : p.conv = .pos) (lvl : Bool) (t : Stamp) (s : State) :
    edgeResolve p .a (sign lvl) t s = predict .a (countWhenArmedA (sign lvl) (recover .a t s)) := by
  simp only [edgeResolve, countWhenArmedA, hneg, hconv]
  cases (recover .a t s).arm .a with
  | zero => simp
  | pos | neg => cases lvl <;> rfl

/-- The resolve part of `EDGE_B.QUAD`, with the opposite convention. -/
theorem edgeResolve_quad_b (lvl : Bool) (t : Stamp) (s : State) :
    edgeResolve (policy .quad .b) .b (sign lvl) t s = predict .b (countWhenArmedB (sign lvl) (recover .b t s)) := by
  simp only [edgeResolve, countWhenArmedB, policy]
  cases (recover .b t s).arm .b with
  | zero => simp
  | pos | neg => cases lvl <;> rfl

/-- Every handler is R120's procedure with the policy of its channel and mode. -/
theorem handlerOf_eq_edgeProcedure (x : Channel) (m : Mode) (lvl : Bool) (t : Stamp) (s : State) :
    handlerOf x m lvl t s = edgeProcedure (policy m x) x lvl t s := by
  match x, m with
  | .a, .std => rw [handlerOf, handlerAStd, ← edgeResolve_std_a]; rfl
  | .a, .dbl => rw [handlerOf, handlerADbl, ← edgeResolve_convA (p := policy .dbl .a) rfl rfl]; rfl
  | .a, .quad => rw [handlerOf, handlerAQuad, ← edgeResolve_convA (p := policy .quad .a) rfl rfl]; rfl
  | .b, .quad => rw [handlerOf, handlerBQuad, ← edgeResolve_quad_b]; rfl
  | .b, .std | .b, .dbl => rfl

/-- Settles O15: one case per gate; behind both, the handler is R120's procedure. -/
theorem edgeGates : Obligations.EdgeGates := by
  intro x lvl t s
  rw [exec_edgeRow]
  refine ⟨fun hhold => ⟨edgeGate_held rfl hhold, rfl⟩, edgeGate_ignored rfl, fun hhold hatt => ?_⟩
  rw [edgeGate_performed rfl hhold hatt, handlerOf_eq_edgeProcedure]

end Sys2Proof.Machine
end

section
/-! PROOFS. The statements about the edge handlers of mode `STD` (41_standard.md R130, R131): the word of an edge row decodes to it, the gates
of R121 answer for the row, and behind them the handler's one update is the rule's. -/

namespace Sys2Proof.Machine

open Sys2Proof

/-! ## The word of an edge row (R90, R92) -/

/-- An edge is no `READ_BEAT`, so its word is always accepted. -/
theorem decode_edge_word (m : Mode) (b : BusW) (x : Channel) (lvl : Bool) (t : Stamp) :
    decode m b (TraceOp.edge x lvl t).word = .ok (edgeRow x m lvl t) := by
  obtain hok | ⟨k, hk, -, -⟩ := Safety.decode_word m b (.edge x lvl t)
  · exact hok
  · cases hk

/-! ## An edge row behind a closed gate (R121) -/

theorem exec_edgeRow_held {m : Mode} {s : State} (hm : s.mode = m) (hh : s.hold = true) (x : Channel) (lvl : Bool) (t : Stamp) :
    exec (edgeRow x m lvl t) s = .next { s with outcome := .held } := by
  rw [exec_edgeRow, edgeGate_held hm hh]

theorem exec_edgeRow_ignored {m : Mode} {s : State} (hm : s.mode = m) (hh : s.hold = false) (ha : s.att = false) (x : Channel)
    (lvl : Bool) (t : Stamp) : exec (edgeRow x m lvl t) s = .next { s with outcome := .done } := by
  rw [exec_edgeRow, edgeGate_ignored hm hh ha]

/-! ## The values the rules write out -/

/-- The recovered arm with the three conditions of R114 written out. -/
theorem recoveredArm_eq_ite (arm put : Tri) (h t l : Stamp) :
    recoveredArm arm put h t l = if arm = .zero ∧ h ≠ 0#32 ∧ h.toNat ≤ (t - l).toNat then put else arm :=
  if_congr (recoveryDue_iff arm h t l) rfl rfl

/-- A count by the sign of a pin goes up when the pin is high and down when it is low (R10, R21). -/
theorem add32_sign (c : Word) (lvl : Bool) : add32 c (sign lvl) = if lvl then c + 1#32 else c - 1#32 := by
  cases lvl
  · exact add32_neg c
  · exact add32_pos c

/-- A `Notify` that goes out under the count's own condition carries the counter after the count (R170). -/
theorem notify_of_counted {p q : Prop} [Decidable p] [Decidable q] (ns : List Word) (c c' : Word) :
    (if p ∧ q then ns ++ [if p then c else c'] else ns) = if p ∧ q then ns ++ [c] else ns :=
  ite_congr rfl (fun h => by rw [if_pos h.1]) fun _ => rfl

/-! ## The statements -/

/-- Settles O17: the update of R130 is the handler's, behind the gates of the row. -/
theorem edgeBStandard : Obligations.EdgeBStandard := by
  intro lvl t s hm
  refine ⟨fun b => decode_edge_word .std b .b lvl t, fun hh ha => ?_, fun hh => ?_, fun hh ha => ?_⟩
  · exact exec_edgeRow_performed hm hh ha .b lvl t
  · exact exec_edgeRow_held hm hh .b lvl t
  · exact exec_edgeRow_ignored hm hh ha .b lvl t

/-- Settles O18: `a` is the recovered arm, so the handler's one update is that of R131. -/
theorem edgeAStandard : Obligations.EdgeAStandard := by
  intro lvl t s a hm harm
  refine ⟨fun b => decode_edge_word .std b .a lvl t, fun hh ha => ?_, fun hh => ?_, fun hh ha => ?_⟩
  · intro c
    have hperformed : exec (.edgeAStd lvl t) s = .next { handlerAStd lvl t s with outcome := .done } :=
      exec_edgeRow_performed hm hh ha .a lvl t
    rw [← recoveredArm_eq_ite] at harm
    simp only [hperformed, handlerAStd_eq, ← harm, add32_sign, c, notify_of_counted]
  · exact exec_edgeRow_held hm hh .a lvl t
  · exact exec_edgeRow_ignored hm hh ha .a lvl t

end Sys2Proof.Machine
end

section
/-! PROOFS. The statements about the edge handlers of mode `DBL` (42_double.md R140, R141): word, gates and update as for mode `STD`, and the
direction of a count by the polarity of the arming. -/

namespace Sys2Proof.Machine

open Sys2Proof

/-! ## The direction of a count on channel A (R116) -/

theorem directionA_pos (s : Tri) : directionA .pos s = s := rfl

theorem directionA_neg (s : Tri) : directionA .neg s = neg3 s := rfl

/-- A count against the sign of a pin goes down when the pin is high and up when it is low (R10, R21). -/
theorem add32_neg3_sign (c : Word) (lvl : Bool) : add32 c (neg3 (sign lvl)) = if lvl then c - 1#32 else c + 1#32 := by
  cases lvl
  · exact add32_pos c
  · exact add32_neg c

/-! ## The statements -/

/-- Settles O19: the update of R140 is the handler's, behind the gates of the row. -/
theorem edgeBDouble : Obligations.EdgeBDouble := by
  intro lvl t s hm
  refine ⟨fun b => decode_edge_word .dbl b .b lvl t, fun hh ha => ?_, fun hh => ?_, fun hh ha => ?_⟩
  · exact exec_edgeRow_performed hm hh ha .b lvl t
  · exact exec_edgeRow_held hm hh .b lvl t
  · exact exec_edgeRow_ignored hm hh ha .b lvl t

/-- Settles O20: `a` is the recovered arm, and for each of its three values the handler's one update is that of R141. -/
theorem edgeADouble : Obligations.EdgeADouble := by
  intro lvl t s a hm harm
  refine ⟨fun b => decode_edge_word .dbl b .a lvl t, fun hh ha => ?_, fun hh => ?_, fun hh ha => ?_⟩
  · intro c
    have hperformed : exec (.edgeADbl lvl t) s = .next { handlerADbl lvl t s with outcome := .done } :=
      exec_edgeRow_performed hm hh ha .a lvl t
    rw [← recoveredArm_eq_ite] at harm
    rw [hperformed, handlerADbl_eq, ← harm]
    cases a with
    | zero => rfl
    | pos => simp [c, directionA_pos, add32_sign]
    | neg => simp [c, directionA_neg, add32_neg3_sign]
  · exact exec_edgeRow_held hm hh .a lvl t
  · exact exec_edgeRow_ignored hm hh ha .a lvl t

end Sys2Proof.Machine
end

section
/-! PROOFS. The statements about the edge handlers of mode `QUAD` (43_quadruple.md R150, R151): word, gates and update as for mode `DBL`; a
count of channel B has the opposite sign. -/

namespace Sys2Proof.Machine

open Sys2Proof

/-! ## The direction of a count on channel B (R116, R152) -/

theorem directionB_pos (s : Tri) : directionB .pos s = neg3 s := rfl

theorem directionB_neg (s : Tri) : directionB .neg s = s := rfl

/-! ## The written-out sign of a pin (R10, R81) -/

theorem ite_eq_sign (lvl : Bool) : (if lvl then Tri.pos else Tri.neg) = sign lvl := rfl

/-! ## The statements -/

/-- Settles O21: `a` is the recovered arm, and for each of its three values the handler's one update is that of R141 with the arming of channel B. -/
theorem edgeAQuadruple : Obligations.EdgeAQuadruple := by
  intro lvl t s a hm harm
  refine ⟨fun b => decode_edge_word .quad b .a lvl t, fun hh ha => ?_, fun hh => ?_, fun hh ha => ?_⟩
  · intro c
    have hperformed : exec (.edgeAQuad lvl t) s = .next { handlerAQuad lvl t s with outcome := .done } :=
      exec_edgeRow_performed hm hh ha .a lvl t
    rw [← recoveredArm_eq_ite] at harm
    rw [hperformed, handlerAQuad_eq, handlerADbl_eq, ← harm]
    cases a with
    | zero => rfl
    | pos => simp [c, ite_eq_sign, directionA_pos, add32_sign]
    | neg => simp [c, ite_eq_sign, directionA_neg, add32_neg3_sign]
  · exact exec_edgeRow_held hm hh .a lvl t
  · exact exec_edgeRow_ignored hm hh ha .a lvl t

/-- Settles O22: `a` is the recovered arm of channel B, and for each of its three values the handler's one update is that of R151. -/
theorem edgeBQuadruple : Obligations.EdgeBQuadruple := by
  intro lvl t s a hm harm
  refine ⟨fun b => decode_edge_word .quad b .b lvl t, fun hh ha => ?_, fun hh => ?_, fun hh ha => ?_⟩
  · intro c
    have hperformed : exec (.edgeBQuad lvl t) s = .next { handlerBQuad lvl t s with outcome := .done } :=
      exec_edgeRow_performed hm hh ha .b lvl t
    rw [← recoveredArm_eq_ite] at harm
    rw [hperformed, handlerBQuad_eq, ← harm]
    cases a with
    | zero => rfl
    | pos => simp [c, ite_eq_sign, directionB_pos, add32_neg3_sign]
    | neg => simp [c, ite_eq_sign, directionB_neg, add32_sign]
  · exact exec_edgeRow_held hm hh .b lvl t
  · exact exec_edgeRow_ignored hm hh ha .b lvl t

end Sys2Proof.Machine
end

section
/-! PROOFS. The statements about the counter accessor (44_counter_accessor.md R160 to R164): the two reads return `counter` or a slice of it,
`SUSPEND` closes the gate of every edge to no foreground operation, and `RESUME` opens it again. -/

namespace Sys2Proof.Machine

open Sys2Proof

/-! ## What the four operations answer -/

theorem exec_readPosition (s : State) :
    exec .readPosition s = .next { s with results := s.results ++ [s.counter], outcome := .done } := rfl

theorem exec_suspend (s : State) : exec .suspend s = .next { s with hold := true, outcome := .done } := rfl

theorem exec_resume (s : State) : exec .resume s = .next { s with hold := false, outcome := .done } := rfl

/-- A beat index in range is read (R164). -/
theorem exec_readBeat_of_lt {k : BitVec 2} {s : State} (hk : k.toNat < beatCount s.cfg.busW) :
    exec (.readBeat k) s =
      .next { s with results := s.results ++ [beat s.cfg.busW k.toNat s.counter], outcome := .done } := by
  rw [exec, execReadBeat, if_pos hk, answer_eq_next]

/-- A beat index out of range is reserved (R93). -/
theorem exec_readBeat_of_le {k : BitVec 2} {s : State} (hk : beatCount s.cfg.busW ≤ k.toNat) :
    exec (.readBeat k) s = .refused (.reservedWord .beatIndex) := by
  rw [exec, execReadBeat, if_neg (Nat.not_lt.2 hk)]

/-! ## The word of a `READ_BEAT` (R90, R93) -/

theorem decode_readBeat_word (m : Mode) (b : BusW) (k : BitVec 2) :
    decode m b (encode (.readBeat k)) = if k.toNat < beatCount b then .ok (.readBeat k) else .error .beatIndex := by
  rw [encode, decode_of_opField_readBeat m b (opField_opWord _ _ _)]
  simp [formatK]

/-! ## The value of a beat (R62) -/

theorem busBits_le_32 (b : BusW) : busBits b ≤ 32 := by cases b <;> decide

/-- A beat is its slice of the counter, zero-extended: the mask keeps the bits below `BUS_W`. -/
theorem getLsbD_beat (b : BusW) (k : Nat) (c : Word) (n : Nat) :
    (beat b k c).getLsbD n = (decide (n < busBits b) && c.getLsbD (busBits b * k + n)) := by
  have hmask : (BitVec.ofNat 32 (2 ^ busBits b - 1)).getLsbD n = decide (n < busBits b) := by
    have hle := busBits_le_32 b
    rw [BitVec.getLsbD_ofNat, Nat.testBit_two_pow_sub_one, ← Bool.decide_and]
    exact decide_eq_decide.2 (by omega)
  rw [beat, BitVec.getLsbD_and, BitVec.getLsbD_ushiftRight, hmask, Bool.and_comm]

/-- With `BUS_W = 32` the one beat is all of the counter. -/
theorem beat_b32_zero (c : Word) : beat .b32 0 c = c := by
  apply BitVec.eq_of_getLsbD_eq
  intro n hn
  rw [getLsbD_beat, busBits, decide_eq_true hn, Bool.true_and, Nat.mul_zero, Nat.zero_add]

/-! ## The foreground operations are never held (R162, R166) -/

/-- Only the gates of an edge answer "held", and only a beat index out of range is refused. -/
theorem exec_foreground_done {i : Instr} {s : State} (hi : i.edgeOf = none) (hwf : i.wf s.mode s.cfg.busW = true) :
    ∃ u, exec i s = .next u ∧ u.outcome = .done := by
  cases i with
  | edgeAStd _ _ | edgeADbl _ _ | edgeAQuad _ _ | edgeBStd _ _ | edgeBDbl _ _ | edgeBQuad _ _ => cases hi
  | readBeat k =>
    have hk : k.toNat < beatCount s.cfg.busW := of_decide_eq_true (Bool.and_eq_true_iff.1 hwf).2
    exact ⟨_, exec_readBeat_of_lt hk, rfl⟩
  | nop | setHoldoff _ | setListener _ | readPosition | isValid | construct _ _ _ _ _ | detach | suspend | resume =>
    exact ⟨_, rfl, rfl⟩

/-! ## An edge while `hold = 0` (R163) -/

/-- With the gate on `hold` open, `att` alone decides; behind both gates the handler is R120's procedure. -/
theorem exec_edgeRow_enabled {s : State} (hh : s.hold = false) (x : Channel) (lvl : Bool) (t : Stamp) :
    exec (edgeRow x s.mode lvl t) s =
      .next (if s.att then { edgeProcedure (policy s.mode x) x lvl t s with outcome := .done } else { s with outcome := .done }) := by
  split
  · next ha => rw [exec_edgeRow_performed rfl hh ha, handlerOf_eq_edgeProcedure]
  · next ha => exact exec_edgeRow_ignored rfl hh (Bool.eq_false_of_not_eq_true ha) x lvl t

/-! ## The statements -/

/-- Settles O38: the read appends `counter`, which it leaves as it was, so a second read appends it again. -/
theorem readPositionReturnsTheCounter : Obligations.ReadPositionReturnsTheCounter := by
  refine ⟨fun _ _ => rfl, fun s => ⟨_, exec_readPosition s, rfl, ?_⟩⟩
  rw [exec_readPosition, List.append_assoc, List.singleton_append]

/-- Settles O39: an index in range reads its slice, any other is reserved in the decoder and in `exec`; the one beat of a 32-bit bus is the
whole counter. -/
theorem readBeatReturnsASlice : Obligations.ReadBeatReturnsASlice := by
  intro k s
  refine ⟨fun hk => ⟨beat s.cfg.busW k.toNat s.counter, ?_, exec_readBeat_of_lt hk, ?_⟩, fun hk => ⟨?_, ?_⟩, fun hbus => ?_⟩
  · exact fun m => (decode_readBeat_word m _ k).trans (if_pos hk)
  · exact getLsbD_beat s.cfg.busW k.toNat s.counter
  · exact fun m => (decode_readBeat_word m _ k).trans (if_neg (Nat.not_lt.2 hk))
  · exact exec_readBeat_of_le hk
  · have hzero : (0#2).toNat < beatCount s.cfg.busW := by rw [hbus]; decide
    rw [exec_readBeat_of_lt hzero, hbus, BitVec.toNat_zero, beat_b32_zero, exec_readPosition]

/-- Settles O43: `hold` is 1 after the first `SUSPEND` already; then the gate holds every edge, and no other operation has that gate. -/
theorem suspendHoldsEdges : Obligations.SuspendHoldsEdges := by
  refine ⟨fun _ _ => rfl, fun s => ⟨_, exec_suspend s, rfl, ?_, ?_, ?_, ?_⟩⟩
  · exact exec_suspend _
  · exact exec_resume _
  · exact exec_edgeRow_held rfl rfl
  · exact fun i => exec_foreground_done

/-- Settles O44: after a `RESUME` the gate on `hold` is open, and its outcome is "done" already, so an ignored edge changes nothing. -/
theorem resumeReleasesEdges : Obligations.ResumeReleasesEdges := by
  refine ⟨fun _ _ => rfl, fun s => ⟨_, exec_resume s, rfl, exec_resume _, ?_⟩⟩
  exact exec_edgeRow_enabled rfl

end Sys2Proof.Machine
end

section
/-! PROOFS. The statements about `NOP` and the configuration operations (45_listener_and_config.md R172, R174, R176): each has its word in
every mode and at every beat width, and is done in every state, whatever `hold` and `att` are. -/

namespace Sys2Proof.Machine

open Sys2Proof

/-! ## The word of a trace line (R93, R96) -/

/-- Only a beat index can be out of range, so any other line's word is accepted. -/
theorem decode_word_of_ne_readBeat (m : Mode) (b : BusW) {o : TraceOp} (ho : ∀ k, o ≠ .readBeat k) :
    decode m b o.word = .ok (o.instr m) := by
  obtain hok | ⟨k, hk, -, -⟩ := Safety.decode_word m b o
  · exact hok
  · exact absurd hk (ho k)

/-! ## What the three operations answer -/

theorem exec_nop (s : State) : exec .nop s = .next { s with outcome := .done } := rfl

theorem exec_setHoldoff (imm : Stamp) (s : State) :
    exec (.setHoldoff imm) s = .next { s with holdoff := imm, outcome := .done } := rfl

theorem exec_setListener (en : Bool) (s : State) :
    exec (.setListener en) s = .next { s with lsn := en, outcome := .done } := rfl

/-! ## The statements -/

/-- Settles O35: the word 0 is the trace line `NOP`, which only reports that it is done. -/
theorem nopChangesNothing : Obligations.NopChangesNothing := by
  refine ⟨fun m b => ?_, exec_nop⟩
  exact decode_word_of_ne_readBeat m b (o := .nop) nofun

/-- Settles O36: the word is the trace line `SET_HOLDOFF`, whose one write is `holdoff`. -/
theorem setHoldoffWritesHoldoff : Obligations.SetHoldoffWritesHoldoff := by
  refine fun imm => ⟨fun m b => ?_, exec_setHoldoff imm⟩
  exact decode_word_of_ne_readBeat m b (o := .setHoldoff imm) nofun

/-- Settles O37: the word is the trace line `SET_LISTENER`, whose one write is `lsn`, whichever bit `en` is. -/
theorem setListenerWritesLsn : Obligations.SetListenerWritesLsn := by
  refine fun en => ⟨fun m b => ?_, exec_setListener en⟩
  exact decode_word_of_ne_readBeat m b (o := .setListener en) nofun

end Sys2Proof.Machine
end

section
/-! PROOFS. The statements about `IS_VALID` and `DETACH` (46_lifecycle.md R183, R185). Both rest on which operations write the two validity bits
and `att`: a `CONSTRUCT` writes all three, a `DETACH` clears `att`, and nothing else touches them. -/

namespace Sys2Proof.Machine

open Sys2Proof

/-! ## What the two operations answer -/

theorem exec_isValid (s : State) :
    exec .isValid s = .next { s with results := s.results ++ [boolWord (s.validA && s.validB)], outcome := .done } := rfl

theorem exec_detach (s : State) : exec .detach s = .next { s with att := false, outcome := .done } := rfl

/-- The zero-extension of a conjunction (R87). -/
theorem boolWord_and (a b : Bool) : boolWord (a && b) = if a = true ∧ b = true then 1#32 else 0#32 := by
  cases a <;> cases b <;> rfl

/-! ## What writes `valid[A]`, `valid[B]` and `att` -/

/-- Held, ignored or performed, an edge leaves the three bits alone. -/
theorem exec_edgeRow_valid_att {x : Channel} {m : Mode} {lvl : Bool} {tm : Stamp} {s t : State}
    (h : exec (edgeRow x m lvl tm) s = .next t) : t.validA = s.validA ∧ t.validB = s.validB ∧ t.att = s.att := by
  rw [exec_edgeRow] at h
  obtain ⟨-, -, ⟨hvA, hvB⟩, hatt, -⟩ := handlerOf_frame x m lvl tm s
  obtain ⟨-, ⟨-, rfl⟩ | ⟨-, -, rfl⟩ | ⟨-, -, rfl⟩⟩ := edgeGate_next h
  · exact ⟨rfl, rfl, rfl⟩
  · exact ⟨rfl, rfl, rfl⟩
  · exact ⟨hvA, hvB, hatt⟩

/-- Without a `CONSTRUCT` the validity is fixed, and `att` changes only by a `DETACH`, which clears it. -/
theorem exec_valid_att_of_ne_construct {i : Instr} {s t : State} (hc : ∀ m lvlA lvlB vA vB, i ≠ .construct m lvlA lvlB vA vB)
    (h : exec i s = .next t) :
    t.validA = s.validA ∧ t.validB = s.validB ∧ (t.att = s.att ∨ i = .detach ∧ t.att = false) := by
  rcases he : i.edgeOf with _ | ⟨x, m⟩
  · cases i with
    | edgeAStd _ _ | edgeADbl _ _ | edgeAQuad _ _ | edgeBStd _ _ | edgeBDbl _ _ | edgeBQuad _ _ => cases he
    | construct m lvlA lvlB vA vB => exact absurd rfl (hc m lvlA lvlB vA vB)
    | detach =>
      rw [exec_detach] at h
      cases h
      exact ⟨rfl, rfl, .inr ⟨rfl, rfl⟩⟩
    | readBeat k =>
      by_cases hk : k.toNat < beatCount s.cfg.busW
      · rw [exec_readBeat_of_lt hk] at h
        cases h
        exact ⟨rfl, rfl, .inl rfl⟩
      · rw [exec_readBeat_of_le (not_lt.1 hk)] at h
        cases h
    | nop | setHoldoff _ | setListener _ | readPosition | isValid | suspend | resume =>
      obtain rfl := Host.Outcome.next.inj h
      exact ⟨rfl, rfl, .inl rfl⟩
  · obtain ⟨lvl, tm, rfl⟩ := edgeOf_eq_some he
    obtain ⟨hvA, hvB, hatt⟩ := exec_edgeRow_valid_att h
    exact ⟨hvA, hvB, .inl hatt⟩

/-! ## The statements -/

/-- Settles O40: the answer is the conjunction of two bits that only a `CONSTRUCT` writes. -/
theorem isValidReturnsTheConjunction : Obligations.IsValidReturnsTheConjunction := by
  refine ⟨fun m b => ?_, fun s => ?_, fun i s t hc h => ?_⟩
  · exact decode_word_of_ne_readBeat m b (o := .isValid) nofun
  · rw [exec_isValid, boolWord_and]
  · obtain ⟨hvA, hvB, -⟩ := exec_valid_att_of_ne_construct hc h
    exact ⟨hvA, hvB⟩

/-- Settles O42: with `att` cleared the gates ignore every edge that is not held, and no operation but a `CONSTRUCT` sets it again. -/
theorem detachClearsAttOnly : Obligations.DetachClearsAttOnly := by
  refine ⟨fun m b => ?_, fun i s t hc ha h => ?_, fun s => ⟨_, exec_detach s, rfl, ?_, ?_, ?_⟩⟩
  · exact decode_word_of_ne_readBeat m b (o := .detach) nofun
  · obtain ⟨-, -, hatt | ⟨-, hatt⟩⟩ := exec_valid_att_of_ne_construct hc h
    · exact hatt.trans ha
    · exact hatt
  · intro x lvl tm hh
    refine exec_edgeRow_ignored rfl ?_ rfl x lvl tm
    exact hh
  · exact exec_readPosition _
  · exact exec_isValid _

end Sys2Proof.Machine
end

section
/-! PROOFS. The statements about the operation word (30_encoding.md R80 to R96): every operation of a mode is the operation of a trace line,
whose word is its encoding, so `decode` and `encode` are inverse; and the words `decode` accepts are those of the opcode table. -/

namespace Sys2Proof

open Sys2Proof.Machine

/-! ## Trace lines and operations (R96) -/

/-- Settles O6: the two columns are written alike, line by line; an edge row has the word of its opcode in every mode. -/
theorem traceWordIsTheEncoding : Obligations.TraceWordIsTheEncoding := by
  intro m o
  cases o with
  | edge x lvl t =>
    cases x with
    | a => exact (encode_edgeARow m lvl t).symm
    | b => exact (encode_edgeBRow m lvl t).symm
  | nop | setHoldoff _ | setListener _ | readPosition | isValid | construct _ _ _ _ _ | detach | suspend | resume | readBeat _ => rfl

/-- There is a trace line for every operation of the mode. -/
theorem exists_traceOp_of_modeOk {m : Mode} {i : Instr} (h : i.modeOk m = true) : ∃ o : TraceOp, o.instr m = i := by
  rcases he : i.edgeOf with _ | ⟨x, n⟩
  · cases i with
    | edgeAStd _ _ | edgeADbl _ _ | edgeAQuad _ _ | edgeBStd _ _ | edgeBDbl _ _ | edgeBQuad _ _ => cases he
    | nop => exact ⟨.nop, rfl⟩
    | setHoldoff imm => exact ⟨.setHoldoff imm, rfl⟩
    | setListener en => exact ⟨.setListener en, rfl⟩
    | readPosition => exact ⟨.readPosition, rfl⟩
    | isValid => exact ⟨.isValid, rfl⟩
    | construct n lvlA lvlB vA vB => exact ⟨.construct n lvlA lvlB vA vB, rfl⟩
    | detach => exact ⟨.detach, rfl⟩
    | suspend => exact ⟨.suspend, rfl⟩
    | resume => exact ⟨.resume, rfl⟩
    | readBeat k => exact ⟨.readBeat k, rfl⟩
  · obtain ⟨lvl, t, rfl⟩ := edgeOf_eq_some he
    obtain rfl : n = m := by simpa [Instr.modeOk] using h
    exact ⟨.edge x lvl t, rfl⟩

/-- A beat index in range is accepted; nothing else can be out of range. -/
theorem decode_encode {m : Mode} {b : BusW} {i : Instr} (h : i.wf m b = true) : decode m b (encode i) = .ok i := by
  obtain ⟨hmode, hbeat⟩ := Bool.and_eq_true_iff.1 h
  obtain ⟨o, rfl⟩ := exists_traceOp_of_modeOk hmode
  rw [← traceWordIsTheEncoding m o]
  obtain hok | ⟨k, rfl, hk, -⟩ := Safety.decode_word m b o
  · exact hok
  · exact absurd (of_decide_eq_true hbeat) hk

/-- Settles O1: the word of an operation is that of a trace line, which decodes to the line's operation. -/
theorem decodeOfEncodeIsTheOperation : Obligations.DecodeOfEncodeIsTheOperation :=
  fun _ _ _ => decode_encode

/-! ## An accepted word is a well-formed operation's -/

theorem wf_edgeRow (x : Channel) (m : Mode) (b : BusW) (lvl : Bool) (t : Stamp) : (edgeRow x m lvl t).wf m b = true := by
  cases x <;> cases m <;> rfl

/-- The decoder answers only operations of its mode, and only beat indices in range. -/
theorem wf_of_decode_ok {m : Mode} {b : BusW} {w : OpWord} {i : Instr} (h : decode m b w = .ok i) : i.wf m b = true := by
  unfold decode at h
  split at h
  case h_1 | h_6 | h_7 | h_9 | h_10 | h_11 =>
    obtain ⟨rfl, -, -⟩ := formatN_ok h
    rfl
  case h_2 =>
    obtain ⟨lvl, rfl, -⟩ := formatE_ok h
    exact wf_edgeRow .a m b lvl _
  case h_3 =>
    obtain ⟨lvl, rfl, -⟩ := formatE_ok h
    exact wf_edgeRow .b m b lvl _
  case h_4 =>
    obtain ⟨rfl, -⟩ := formatH_ok h
    rfl
  case h_5 =>
    obtain ⟨en, rfl, -⟩ := formatL_ok h
    rfl
  case h_8 =>
    obtain ⟨n, lvlA, lvlB, vA, vB, rfl, -⟩ := formatC_ok h
    rfl
  case h_12 =>
    obtain ⟨k, rfl, -, -, hk⟩ := formatK_ok h
    simpa [Instr.wf, Instr.modeOk, Instr.edgeOf, Instr.beatOk] using hk
  case h_13 => cases h

/-- Settles O2: the decoder drops no bit of an accepted word and checks both conditions of well-formedness. -/
theorem acceptedWordIsAnEncoding : Obligations.AcceptedWordIsAnEncoding :=
  fun _ _ _ _ h => ⟨encode_of_decode_ok h, wf_of_decode_ok h⟩

/-- Settles O5: seventeen closed words, by evaluation of the decoder. -/
theorem writtenOutWordsDecode : Obligations.WrittenOutWordsDecode :=
  ⟨rfl, rfl, rfl, rfl, rfl, rfl, rfl, rfl, rfl, rfl, rfl, rfl, rfl, rfl, rfl, rfl, rfl⟩

/-! ## The words of the opcode table (R90) -/

/-- Every row of R90 fixes all of `op` and requires the bits of `aux` and `data` under its mask to be 0. -/
theorem fields_of_matchesRow {w : OpWord} {op mask : BitVec 4} {mask' : BitVec 32}
    (h : matchesRow w (opWord op 0#4 0#32, opWord 0xF#4 mask mask') = true) :
    opField w = op ∧ auxField w &&& mask = 0#4 ∧ dataField w &&& mask' = 0#32 := by
  have hw : opWord (opField w &&& 0xF#4) (auxField w &&& mask) (dataField w &&& mask') = opWord op 0#4 0#32 := by
    rw [← opWord_and, opWord_fields]
    exact beq_iff_eq.1 h
  refine ⟨?_, ?_, ?_⟩
  · have hop : opField w &&& BitVec.allOnes 4 = op := by simpa using congrArg opField hw
    rwa [BitVec.and_allOnes] at hop
  · simpa using congrArg auxField hw
  · simpa using congrArg dataField hw

/-- All of `aux` is masked in a format `N` or `H` row. -/
theorem aux_eq_zero {u : BitVec 4} (h : u &&& 0xF#4 = 0#4) : u = 0#4 := by
  revert u; decide

/-- The three upper bits are masked in a format `E` or `L` row. -/
theorem aux_rest_of_bit {u : BitVec 4} (h : u &&& 0xE#4 = 0#4) : u.extractLsb' 1 3 = 0#3 := by
  revert u; decide

/-- The two upper bits are masked in a format `K` or `C` row. -/
theorem aux_rest_of_pair {u : BitVec 4} (h : u &&& 0xC#4 = 0#4) : u.extractLsb' 2 2 = 0#2 := by
  revert u; decide

/-- All of `data` is masked where a format has no data. -/
theorem data_eq_zero {d : BitVec 32} (h : d &&& 0xFFFFFFFF#32 = 0#32) : d = 0#32 := by
  rwa [show 0xFFFFFFFF#32 = BitVec.allOnes 32 from rfl, BitVec.and_allOnes] at h

/-- All of `data` but the four flags is masked in the row of `CONSTRUCT`. -/
theorem data_rest_of_flags {d : BitVec 32} (h : d &&& 0xFFFFFFF0#32 = 0#32) : d.extractLsb' 4 28 = 0#28 := by
  calc d.extractLsb' 4 28
    _ = d.extractLsb' 4 28 &&& (0xFFFFFFF0#32).extractLsb' 4 28 := by
      rw [show (0xFFFFFFF0#32).extractLsb' 4 28 = BitVec.allOnes 28 from rfl, BitVec.and_allOnes]
    _ = (d &&& 0xFFFFFFF0#32).extractLsb' 4 28 := (BitVec.extractLsb'_and ..).symm
    _ = 0#28 := by rw [h]; rfl

/-- R84 gives every code but `0b11` to a mode. -/
theorem exists_modeCode_eq {c : BitVec 2} (h : c ≠ 0b11#2) : ∃ m, modeCode m = c := by
  have hcodes : ∀ c : BitVec 2, c ≠ 0b11#2 → modeCode .std = c ∨ modeCode .dbl = c ∨ modeCode .quad = c := by decide
  obtain hc | hc | hc := hcodes c h
  · exact ⟨.std, hc⟩
  · exact ⟨.dbl, hc⟩
  · exact ⟨.quad, hc⟩

/-- A row with every bit of `aux` and `data` masked is matched by one word. -/
theorem encode_eq_of_matchesRow_formatN {w : OpWord} {i : Instr} {op : BitVec 4}
    (h : matchesRow w (opWord op 0#4 0#32, opWord 0xF#4 0xF#4 0xFFFFFFFF#32) = true) (hi : encode i = opWord op 0#4 0#32) :
    encode i = w := by
  obtain ⟨hop, haux, hd⟩ := fields_of_matchesRow h
  rw [hi, opWord_eq_of_fields hop (aux_eq_zero haux) (data_eq_zero hd)]

/-- An edge row leaves the level and the clock free. -/
theorem encode_eq_of_matchesRow_formatE {w : OpWord} {row : Bool → Stamp → Instr} {op : BitVec 4}
    (h : matchesRow w (opWord op 0#4 0#32, opWord 0xF#4 0xE#4 0#32) = true)
    (hrow : ∀ lvl t, encode (row lvl t) = opWord op (auxOfBit lvl) t) :
    encode (row ((auxField w).getLsbD 0) (dataField w)) = w := by
  obtain ⟨hop, haux, -⟩ := fields_of_matchesRow h
  rw [hrow, opWord_eq_of_fields hop (auxOfBit_of_rest _ (aux_rest_of_bit haux)).symm rfl]

/-- A word that matches a row is the encoding of an operation with the word's own fields as operands; the two restricted operands have to be in
range (R93). -/
theorem exists_encode_eq_of_matchesRow (m : Mode) {b : BusW} {w : OpWord} {row : OpWord × OpWord} (hmem : row ∈ opcodeRows)
    (hrow : matchesRow w row = true) (hmode : ¬ (opField w = 0x8#4 ∧ (auxField w).extractLsb' 0 2 = 0b11#2))
    (hbeat : ¬ (opField w = 0xC#4 ∧ beatCount b ≤ ((auxField w).extractLsb' 0 2).toNat)) :
    ∃ i, i.wf m b = true ∧ encode i = w := by
  simp only [opcodeRows, List.mem_cons, List.not_mem_nil, or_false] at hmem
  obtain rfl | rfl | rfl | rfl | rfl | rfl | rfl | rfl | rfl | rfl | rfl | rfl := hmem
  · exact ⟨.nop, rfl, encode_eq_of_matchesRow_formatN (op := 0x0#4) hrow rfl⟩
  · exact ⟨_, wf_edgeRow .a m b _ _, encode_eq_of_matchesRow_formatE (op := 0x1#4) hrow (encode_edgeARow m)⟩
  · exact ⟨_, wf_edgeRow .b m b _ _, encode_eq_of_matchesRow_formatE (op := 0x2#4) hrow (encode_edgeBRow m)⟩
  · obtain ⟨hop, haux, -⟩ := fields_of_matchesRow (op := 0x4#4) (mask := 0xF#4) (mask' := 0#32) hrow
    exact ⟨.setHoldoff _, rfl, opWord_eq_of_fields hop (aux_eq_zero haux) rfl⟩
  · obtain ⟨hop, haux, hd⟩ := fields_of_matchesRow (op := 0x5#4) (mask := 0xE#4) (mask' := 0xFFFFFFFF#32) hrow
    exact ⟨.setListener _, rfl, opWord_eq_of_fields hop (auxOfBit_of_rest _ (aux_rest_of_bit haux)).symm (data_eq_zero hd)⟩
  · exact ⟨.readPosition, rfl, encode_eq_of_matchesRow_formatN (op := 0x6#4) hrow rfl⟩
  · exact ⟨.isValid, rfl, encode_eq_of_matchesRow_formatN (op := 0x7#4) hrow rfl⟩
  · obtain ⟨hop, haux, hd⟩ := fields_of_matchesRow (op := 0x8#4) (mask := 0xC#4) (mask' := 0xFFFFFFF0#32) hrow
    obtain ⟨n, hn⟩ := exists_modeCode_eq fun hcode => hmode ⟨hop, hcode⟩
    refine ⟨.construct n _ _ _ _, rfl, opWord_eq_of_fields hop ?_ (constructData_of_rest _ (data_rest_of_flags hd)).symm⟩
    rw [hn, auxOfPair_of_rest _ (aux_rest_of_pair haux)]
  · exact ⟨.detach, rfl, encode_eq_of_matchesRow_formatN (op := 0x9#4) hrow rfl⟩
  · exact ⟨.suspend, rfl, encode_eq_of_matchesRow_formatN (op := 0xA#4) hrow rfl⟩
  · exact ⟨.resume, rfl, encode_eq_of_matchesRow_formatN (op := 0xB#4) hrow rfl⟩
  · obtain ⟨hop, haux, hd⟩ := fields_of_matchesRow (op := 0xC#4) (mask := 0xC#4) (mask' := 0xFFFFFFFF#32) hrow
    have hk : ((auxField w).extractLsb' 0 2).toNat < beatCount b := not_le.1 fun hle => hbeat ⟨hop, hle⟩
    refine ⟨.readBeat _, decide_eq_true hk, opWord_eq_of_fields hop ?_ (data_eq_zero hd)⟩
    exact (auxOfPair_of_rest _ (aux_rest_of_pair haux)).symm

/-- Settles O3: a word that matches a row is an encoding, so it decodes; an accepted word matches the row of its operation and has its restricted
operand in range. -/
theorem decoderAcceptsExactlyTheOpcodeTable : Obligations.DecoderAcceptsExactlyTheOpcodeTable := by
  intro m b w
  refine ⟨⟨fun ⟨i, hi⟩ => ⟨?_, ?_, ?_⟩, fun ⟨⟨row, hmem, hrow⟩, hmode, hbeat⟩ => ?_⟩, fun i => matchesRow_of_decode_ok⟩
  · exact ⟨tableRow i, tableRow_mem_opcodeRows i, matchesRow_of_decode_ok hi⟩
  · exact fun ⟨hop, hcode⟩ => constructMode_of_decode_ok hi hop hcode
  · exact fun ⟨hop, hle⟩ => absurd (beatIndex_of_decode_ok hi hop) (not_lt.2 hle)
  · obtain ⟨i, hwf, rfl⟩ := exists_encode_eq_of_matchesRow m hmem hrow hmode hbeat
    exact ⟨i, decode_encode hwf⟩

end Sys2Proof
end

section
/-! PROOFS. What an operation can do, said once (`exec_next`), and the statements that follow from it: which operations answer
(60_exceptions.md R190), which are held (00_scope.md R12), what counts and announces (45_listener_and_config.md R170), and the access
matrix (10_state.md R37). -/

namespace Sys2Proof.Machine

open Sys2Proof Sys2Proof.Safety

/-! ## What an operation can do -/

/-- What a foreground operation does but for the recorded outcome (R160 to R187). Edge rows, which `handlerOf` covers, stand for nothing here. -/
def foregroundEffect (i : Instr) (s : State) : State :=
  match i with
  | .setHoldoff imm => { s with holdoff := imm }
  | .setListener en => { s with lsn := en }
  | .readPosition => s.emitResult s.counter
  | .isValid => s.emitResult (boolWord (s.validA && s.validB))
  | .construct m lvlA lvlB vA vB => constructed m lvlA lvlB vA vB s
  | .detach => { s with att := false }
  | .suspend => { s with hold := true }
  | .resume => { s with hold := false }
  | .readBeat k => s.emitResult (beat s.cfg.busW k.toNat s.counter)
  | .nop | .edgeAStd _ _ | .edgeADbl _ _ | .edgeAQuad _ _ | .edgeBStd _ _ | .edgeBDbl _ _ | .edgeBQuad _ _ => s

/-- A foreground operation is performed in every state, but for a beat index out of range. -/
theorem exec_foreground {i : Instr} {s : State} (hi : i.edgeOf = none) (hk : i.beatOk s.cfg.busW = true) :
    exec i s = .next { foregroundEffect i s with outcome := .done } := by
  cases i with
  | edgeAStd _ _ | edgeADbl _ _ | edgeAQuad _ _ | edgeBStd _ _ | edgeBDbl _ _ | edgeBQuad _ _ => cases hi
  | readBeat k => exact exec_readBeat_of_lt (of_decide_eq_true hk)
  | nop | setHoldoff _ | setListener _ | readPosition | isValid | construct _ _ _ _ _ | detach | suspend | resume => rfl

/-- A beat index out of range is the one operand `exec` refuses in a foreground operation (R93). -/
theorem exec_of_beatOk_eq_false {i : Instr} {s : State} (hk : i.beatOk s.cfg.busW = false) :
    exec i s = .refused (.reservedWord .beatIndex) := by
  cases i with
  | readBeat k => exact exec_readBeat_of_le (not_lt.1 (of_decide_eq_false hk))
  | _ => cases hk

/-- Everything an operation that answers a next state can have done. -/
theorem exec_next {i : Instr} {s t : State} (h : exec i s = .next t) :
    (i.edgeOf.isSome = true ∧ s.hold = true ∧ t = { s with outcome := .held }) ∨
    (i.edgeOf.isSome = true ∧ s.hold = false ∧ s.att = false ∧ t = { s with outcome := .done }) ∨
    (∃ x lvl tm, i = edgeRow x s.mode lvl tm ∧ s.hold = false ∧ s.att = true ∧
      t = { handlerOf x s.mode lvl tm s with outcome := .done }) ∨
    (i.edgeOf = none ∧ t = { foregroundEffect i s with outcome := .done }) := by
  rcases he : i.edgeOf with _ | ⟨x, m⟩
  · cases hk : i.beatOk s.cfg.busW with
    | true =>
      rw [exec_foreground he hk] at h
      exact .inr (.inr (.inr ⟨rfl, (Host.Outcome.next.inj h).symm⟩))
    | false =>
      rw [exec_of_beatOk_eq_false hk] at h
      cases h
  · obtain ⟨lvl, tm, rfl⟩ := edgeOf_eq_some he
    rw [exec_edgeRow] at h
    obtain ⟨rfl, ⟨hh, ht⟩ | ⟨hh, ha, ht⟩ | ⟨hh, ha, ht⟩⟩ := edgeGate_next h
    · exact .inl ⟨rfl, hh, ht⟩
    · exact .inr (.inl ⟨rfl, hh, ha, ht⟩)
    · exact .inr (.inr (.inl ⟨x, lvl, tm, rfl, hh, ha, ht⟩))

/-- Settles O16: the row's mode is the first gate. -/
theorem edgeRowOfAnotherModeIsRefused : Obligations.EdgeRowOfAnotherModeIsRefused := by
  intro i x m s hi hm
  obtain ⟨lvl, t, rfl⟩ := edgeOf_eq_some hi
  rw [exec_edgeRow, edgeGate_unwired hm]

/-! ## Every well-formed operation answers (R190) -/

/-- An edge row of the present mode is held, ignored or performed. -/
theorem exists_exec_edgeRow_next (x : Channel) (lvl : Bool) (tm : Stamp) (s : State) :
    ∃ t, exec (edgeRow x s.mode lvl tm) s = .next t := by
  cases hh : s.hold with
  | true => exact ⟨_, exec_edgeRow_held rfl hh x lvl tm⟩
  | false => exact ⟨_, exec_edgeRow_enabled hh x lvl tm⟩

theorem exists_exec_next_of_wf {i : Instr} {s : State} (hwf : i.wf s.mode s.cfg.busW = true) : ∃ t, exec i s = .next t := by
  obtain ⟨hmode, hbeat⟩ := Bool.and_eq_true_iff.1 hwf
  rcases he : i.edgeOf with _ | ⟨x, m⟩
  · exact ⟨_, exec_foreground he hbeat⟩
  · obtain ⟨lvl, tm, rfl⟩ := edgeOf_eq_some he
    obtain rfl : m = s.mode := by simpa [Instr.modeOk] using hmode
    exact exists_exec_edgeRow_next x lvl tm s

/-! ## Which operations are held (R12) -/

/-- Settles O24: of the four things an operation can do, one records "held". -/
theorem onlyMaskedEdgesAreHeld : Obligations.OnlyMaskedEdgesAreHeld := by
  intro i s t h
  obtain ⟨he, hh, rfl⟩ | ⟨-, hh, -, rfl⟩ | ⟨x, lvl, tm, -, hh, -, rfl⟩ | ⟨he, rfl⟩ := exec_next h
  · simp [he, hh]
  · simp [hh]
  · simp [hh]
  · simp [he]

/-! ## Counts and the `Notify` stream (R116, R170) -/

/-- A sign times a sign is a sign. -/
theorem directionA_sign_ne_zero (arm : Tri) (lvl : Bool) : directionA arm (sign lvl) ≠ .zero := by
  cases arm <;> cases lvl <;> decide

theorem directionB_sign_ne_zero (arm : Tri) (lvl : Bool) : directionB arm (sign lvl) ≠ .zero := by
  cases arm <;> cases lvl <;> decide

/-- A step that counts nothing, or counts once and announces the new counter if a listener is installed. -/
def CountsAtMostOnce (s u : State) : Prop :=
  (u.counter = s.counter ∧ u.notifies = s.notifies) ∨
    ∃ d : Tri, d ≠ .zero ∧ u.counter = add32 s.counter d ∧
      u.notifies = if s.lsn then s.notifies ++ [u.counter] else s.notifies

theorem handlerADbl_countsAtMostOnce (lvl : Bool) (t : Stamp) (s : State) : CountsAtMostOnce s (handlerADbl lvl t s) := by
  rw [handlerADbl_eq]
  generalize recoveredArm s.armA s.putA s.holdoff t s.lastA = a
  by_cases ha : a = .zero
  · exact .inl (by simp [ha])
  · exact .inr ⟨_, directionA_sign_ne_zero a lvl, by simp [ha], by simp [ha]⟩

/-- A handler has one count step. -/
theorem handlerOf_countsAtMostOnce (x : Channel) (m : Mode) (lvl : Bool) (t : Stamp) (s : State) :
    CountsAtMostOnce s (handlerOf x m lvl t s) := by
  match x, m with
  | .a, .std =>
    rw [handlerOf, handlerAStd_eq]
    by_cases hr : recoveredArm s.armA s.putA s.holdoff t s.lastA = .pos
    · exact .inr ⟨_, sign_ne_zero lvl, by simp [hr], by simp [hr]⟩
    · exact .inl (by simp [hr])
  | .a, .dbl => exact handlerADbl_countsAtMostOnce lvl t s
  | .a, .quad =>
    rw [handlerOf, handlerAQuad_eq]
    exact handlerADbl_countsAtMostOnce lvl t s
  | .b, .std | .b, .dbl => exact .inl ⟨rfl, rfl⟩
  | .b, .quad =>
    rw [handlerOf, handlerBQuad_eq]
    generalize recoveredArm s.armB s.putB s.holdoff t s.lastB = a
    by_cases ha : a = .zero
    · exact .inl (by simp [ha])
    · exact .inr ⟨_, directionB_sign_ne_zero a lvl, by simp [ha], by simp [ha]⟩

/-- A count of a nonzero `tri` is a step up or down. -/
theorem add32_of_ne_zero {d : Tri} (hd : d ≠ .zero) (c : Word) : add32 c d = c + 1#32 ∨ add32 c d = c - 1#32 := by
  cases d with
  | zero => exact absurd rfl hd
  | pos => exact .inl (add32_pos c)
  | neg => exact .inr (add32_neg c)

/-- No foreground operation announces anything (R170). -/
theorem foregroundEffect_notifies (i : Instr) (s : State) : (foregroundEffect i s).notifies = s.notifies := by
  cases i <;> rfl

/-- Settles O27: a performed handler counts at most once; of the other operations only a `CONSTRUCT` writes `counter`, and none announces. -/
theorem oneNotifyPerCount : Obligations.OneNotifyPerCount := by
  intro i s t h
  obtain ⟨-, -, rfl⟩ | ⟨-, -, -, rfl⟩ | ⟨x, lvl, tm, rfl, -, -, rfl⟩ | ⟨he, ht⟩ := exec_next h
  · exact .inl ⟨rfl, rfl⟩
  · exact .inl ⟨rfl, rfl⟩
  · obtain hnone | ⟨d, hd, hc, hn⟩ := handlerOf_countsAtMostOnce x s.mode lvl tm s
    · exact .inl hnone
    · exact .inr (.inl ⟨by simp, hc ▸ add32_of_ne_zero hd s.counter, hn⟩)
  · have hn : t.notifies = s.notifies := by rw [ht]; exact foregroundEffect_notifies i s
    by_cases hc : ∃ m lvlA lvlB vA vB, i = .construct m lvlA lvlB vA vB
    · exact .inr (.inr ⟨hc, hn⟩)
    · refine .inl ⟨exec_counter_of_edgeOf_eq_none h he fun m lvlA lvlB vA vB hi => hc ?_, hn⟩
      exact ⟨m, lvlA, lvlB, vA, vB, hi⟩

/-! ## Reads (R66) -/

/-- The outputs and the recorded outcome are no elements. -/
theorem holds_withResults_outcome (e : Element) (s : State) (rs : List Word) (o : OpOutcome) :
    e.holds { s with results := rs, outcome := o } ↔ e.holds s := by
  rcases e with _ | _ | _ | _ | _ | _ | _ | ⟨_ | _, _⟩ | _ | _ <;> rfl

theorem holds_withOutcome (e : Element) (s : State) (o : OpOutcome) : e.holds { s with outcome := o } ↔ e.holds s :=
  holds_withResults_outcome e s s.results o

/-- A read appends one value, which it reads again in the state it leaves. -/
theorem exec_read {i : Instr} {s t : State} (hi : i = .readPosition ∨ i = .isValid ∨ ∃ k, i = .readBeat k)
    (h : exec i s = .next t) :
    ∃ v, t = { s with results := s.results ++ [v], outcome := .done } ∧
      exec i t = .next { t with results := t.results ++ [v], outcome := .done } := by
  obtain rfl | rfl | ⟨k, rfl⟩ := hi
  · obtain rfl := Host.Outcome.next.inj h
    exact ⟨_, rfl, rfl⟩
  · obtain rfl := Host.Outcome.next.inj h
    exact ⟨_, rfl, rfl⟩
  · by_cases hk : k.toNat < beatCount s.cfg.busW
    · rw [exec_readBeat_of_lt hk] at h
      obtain rfl := Host.Outcome.next.inj h
      exact ⟨_, rfl, exec_readBeat_of_lt hk⟩
    · rw [exec_readBeat_of_le (not_lt.1 hk)] at h
      cases h

/-- Settles O45: the value appended is no element, so nothing the second read depends on has changed. -/
theorem readsHaveNoSideEffect : Obligations.ReadsHaveNoSideEffect := by
  intro i s t hi h
  obtain ⟨v, rfl, hagain⟩ := exec_read hi h
  exact ⟨fun e => (holds_withResults_outcome e s _ _).symm, rfl, v, rfl, _, hagain, List.append_assoc _ _ _⟩

/-! ## The access matrix (R37) -/

theorem eq_self_or_opp (x y : Channel) : y = x ∨ y = opp x := by
  cases x <;> cases y <;> decide

/-- The `w` entries of the edge rows: no setting and no gate bit is one; of the registers, a channel's own are, but for what a handler that does
not resolve leaves out. -/
theorem handlerOf_holds {x : Channel} {m : Mode} {lvl : Bool} {tm : Stamp} {e : Element}
    (hw : writes (edgeRow x m lvl tm) e = false) (s : State) : e.holds (handlerOf x m lvl tm s) ↔ e.holds s := by
  obtain ⟨-, ⟨hholdoff, hlsn, hmode⟩, ⟨hvA, hvB⟩, hatt, hhold, -, hput, hlast, -⟩ := handlerOf_frame x m lvl tm s
  cases e with
  | holdoff _ | lsn _ | mode _ | att _ | hold _ => simp only [Element.holds, hholdoff, hlsn, hmode, hatt, hhold]
  | valid y _ => cases y <;> simp only [Element.holds, hvA, hvB]
  | counter _ =>
    match x, m with
    | .a, .std | .a, .dbl | .a, .quad | .b, .quad => cases hw
    | .b, .std | .b, .dbl => rfl
  | arm y _ =>
    match x, m, y with
    | .a, .std, .b => simp [handlerOf, handlerAStd_eq, Element.holds]
    | .a, .dbl, .b => simp [handlerOf, handlerADbl_eq, Element.holds]
    | .a, .std, .a | .a, .dbl, .a | .a, .quad, .a | .a, .quad, .b => cases hw
    | .b, .std, .a | .b, .dbl, .a | .b, .quad, .a | .b, .std, .b | .b, .dbl, .b | .b, .quad, .b => cases hw
  | put y _ =>
    obtain rfl | rfl := eq_self_or_opp x y
    · match y, m with
      | .a, .std | .a, .dbl | .a, .quad | .b, .quad => cases hw
      | .b, .std | .b, .dbl => rfl
    · simp only [Element.holds, hput]
  | last y _ =>
    obtain rfl | rfl := eq_self_or_opp x y
    · match y, m with
      | .a, .std | .a, .dbl | .a, .quad | .b, .std | .b, .dbl | .b, .quad => cases hw
    · simp only [Element.holds, hlast]

/-- The `w` entries of the foreground operations: a read writes no element, a setting its own. -/
theorem foregroundEffect_holds {i : Instr} {e : Element} (hw : writes i e = false) (s : State) :
    e.holds (foregroundEffect i s) ↔ e.holds s := by
  cases i with
  | construct _ _ _ _ _ => cases hw
  | readPosition | isValid | readBeat _ => exact holds_withResults_outcome e s _ s.outcome
  | nop | edgeAStd _ _ | edgeADbl _ _ | edgeAQuad _ _ | edgeBStd _ _ | edgeBDbl _ _ | edgeBQuad _ _ => rfl
  | setHoldoff _ =>
    cases e with
    | holdoff _ => cases hw
    | valid y _ => cases y <;> rfl
    | _ => rfl
  | setListener _ =>
    cases e with
    | lsn _ => cases hw
    | valid y _ => cases y <;> rfl
    | _ => rfl
  | detach =>
    cases e with
    | att _ => cases hw
    | valid y _ => cases y <;> rfl
    | _ => rfl
  | suspend | resume =>
    cases e with
    | hold _ => cases hw
    | valid y _ => cases y <;> rfl
    | _ => rfl

/-- What an operation does not write it leaves unchanged. -/
theorem exec_holds {i : Instr} {e : Element} {s t : State} (hw : writes i e = false) (h : exec i s = .next t) :
    e.holds s ↔ e.holds t := by
  obtain ⟨-, -, rfl⟩ | ⟨-, -, -, rfl⟩ | ⟨x, lvl, tm, rfl, -, -, rfl⟩ | ⟨-, rfl⟩ := exec_next h
  · exact (holds_withOutcome e s _).symm
  · exact (holds_withOutcome e s _).symm
  · exact (handlerOf_holds hw s).symm.trans (holds_withOutcome e _ _).symm
  · exact (foregroundEffect_holds hw s).symm.trans (holds_withOutcome e _ _).symm

/-- The `r` entries of the edge rows: where an element is none, the row's one update of the written state keeps the element or overwrites it. -/
theorem handlerOf_write {x : Channel} {m : Mode} {lvl : Bool} {tm : Stamp} {e : Element}
    (hr : reads (edgeRow x m lvl tm) e = false) (s : State) :
    handlerOf x m lvl tm (e.write s) =
      if writes (edgeRow x m lvl tm) e then handlerOf x m lvl tm s else e.write (handlerOf x m lvl tm s) := by
  cases e with
  | mode _ | att _ | hold _ => cases x <;> cases m <;> cases hr
  | counter _ | holdoff _ | lsn _ =>
    match x, m with
    | .a, .std | .a, .dbl | .a, .quad | .b, .quad => cases hr
    | .b, .std | .b, .dbl => rfl
  | valid y _ | arm y _ | put y _ | last y _ =>
    match x, m with
    | .a, .std => cases y <;> simp_all [handlerOf, handlerAStd_eq, Element.write, edgeRow, edgeARow, reads, writes]
    | .a, .dbl => cases y <;> simp_all [handlerOf, handlerADbl_eq, Element.write, edgeRow, edgeARow, reads, writes]
    | .a, .quad =>
      cases y <;> simp_all [handlerOf, handlerAQuad_eq, handlerADbl_eq, Element.write, edgeRow, edgeARow, reads, writes]
    | .b, .quad => cases y <;> simp_all [handlerOf, handlerBQuad_eq, Element.write, edgeRow, edgeBRow, reads, writes]
    | .b, .std | .b, .dbl => cases y <;> rfl

/-- The `r` entries of the foreground operations. -/
theorem foregroundEffect_write {i : Instr} {e : Element} (hi : i.edgeOf = none) (hr : reads i e = false) (s : State) :
    foregroundEffect i (e.write s) = if writes i e then foregroundEffect i s else e.write (foregroundEffect i s) := by
  cases i with
  | edgeAStd _ _ | edgeADbl _ _ | edgeAQuad _ _ | edgeBStd _ _ | edgeBDbl _ _ | edgeBQuad _ _ => cases hi
  | readPosition | readBeat _ =>
    cases e with
    | counter _ => cases hr
    | arm y _ | put y _ | last y _ | valid y _ => cases y <;> rfl
    | _ => rfl
  | isValid =>
    cases e with
    | valid _ _ => cases hr
    | arm y _ | put y _ | last y _ => cases y <;> rfl
    | _ => rfl
  | nop | setHoldoff _ | setListener _ | construct _ _ _ _ _ | detach | suspend | resume =>
    cases e with
    | arm y _ | put y _ | last y _ | valid y _ => cases y <;> rfl
    | _ => rfl

theorem write_cfg (e : Element) (s : State) : (e.write s).cfg = s.cfg := by
  cases e with
  | arm y _ | put y _ | last y _ | valid y _ => cases y <;> rfl
  | _ => rfl

theorem write_withOutcome (e : Element) (s : State) (o : OpOutcome) :
    ({ e.write s with outcome := o } : State) = e.write { s with outcome := o } := by
  cases e with
  | arm y _ | put y _ | last y _ | valid y _ => cases y <;> rfl
  | _ => rfl

/-- Every edge row reads what its gates test. -/
theorem write_gates {x : Channel} {m : Mode} {lvl : Bool} {tm : Stamp} {e : Element}
    (hr : reads (edgeRow x m lvl tm) e = false) (s : State) :
    (e.write s).mode = s.mode ∧ (e.write s).hold = s.hold ∧ (e.write s).att = s.att := by
  cases e with
  | mode _ | att _ | hold _ => cases x <;> cases m <;> cases hr
  | arm y _ | put y _ | last y _ | valid y _ => cases y <;> exact ⟨rfl, rfl, rfl⟩
  | counter _ | holdoff _ | lsn _ => exact ⟨rfl, rfl, rfl⟩

/-- An answer made of an update that keeps or overwrites the element. -/
theorem next_ite_write {e : Element} {p : Prop} [Decidable p] {u v w : State} (h : w = if p then u else e.write v)
    (o : OpOutcome) :
    (.next { w with outcome := o } : Result) =
      if p then .next { u with outcome := o } else e.writeResult (.next { v with outcome := o }) := by
  subst h
  split
  · rfl
  · rw [write_withOutcome]; rfl

/-- What an operation does not read has no influence on it, but that it is kept or overwritten. -/
theorem exec_write {i : Instr} {e : Element} {s : State} (hr : reads i e = false) (hp : Performed i s) :
    exec i (e.write s) = if writes i e then exec i s else e.writeResult (exec i s) := by
  rcases he : i.edgeOf with _ | ⟨x, m⟩
  · cases hk : i.beatOk s.cfg.busW with
    | true =>
      rw [exec_foreground he hk, exec_foreground he (by rwa [write_cfg])]
      exact next_ite_write (foregroundEffect_write he hr s) .done
    | false =>
      rw [exec_of_beatOk_eq_false hk, exec_of_beatOk_eq_false (by rwa [write_cfg])]
      exact (ite_self _).symm
  · obtain ⟨lvl, tm, rfl⟩ := edgeOf_eq_some he
    obtain ⟨hh, ha⟩ := hp (by simp)
    obtain ⟨hmode, hhold, hatt⟩ := write_gates hr s
    by_cases hm : s.mode = m
    · rw [exec_edgeRow_performed hm hh ha, exec_edgeRow_performed (hmode.trans hm) (hhold.trans hh) (hatt.trans ha)]
      exact next_ite_write (handlerOf_write hr s) .done
    · rw [exec_edgeRow, exec_edgeRow, edgeGate_unwired hm, edgeGate_unwired (by rwa [hmode])]
      exact (ite_self _).symm

/-- Settles O46: the two halves of the matrix. -/
theorem accessMatrix : Obligations.AccessMatrix :=
  fun _ _ _ => ⟨fun hw _ => exec_holds hw, exec_write⟩

end Sys2Proof.Machine
end

section
/-! PROOFS. The statements about one step (20_memory.md R67, 70_reset_and_hazards.md R232, R233): which event is performed, what a micro-step leaves
alone, what every step keeps (10_state.md R25, R30 to R32, R40, R41), and which steps answer (60_exceptions.md R190, R195). -/

namespace Sys2Proof.Machine

open Sys2Proof Sys2Proof.Safety

/-! ## A micro-step (R232) -/

/-- What no micro-step touches: the settings, the gate bits, the results, the handlers in flight and the other channel's `put` and `last`. -/
theorem microEffect_keeps (m : Mode) (x : Channel) (lvl : Bool) (tm : Stamp) (q : Micro) (s : State) :
    let u := (microEffect m x lvl tm q s).2
    (u.holdoff = s.holdoff ∧ u.lsn = s.lsn ∧ u.mode = s.mode) ∧ (u.validA = s.validA ∧ u.validB = s.validB) ∧ u.att = s.att ∧
      u.hold = s.hold ∧ u.results = s.results ∧ u.put (opp x) = s.put (opp x) ∧ u.last (opp x) = s.last (opp x) ∧
      u.flight (opp x) = s.flight (opp x) := by
  cases q <;> simp [microEffect, armOther, disarm, stamp]

/-- Only micro-step 11 writes `counter`. -/
theorem microEffect_counter (m : Mode) (x : Channel) (lvl : Bool) (tm : Stamp) (q : Micro) (s : State) :
    (microEffect m x lvl tm q s).2.counter = s.counter ∨
      ∃ tm' d c, q = .writeCounter tm' d c ∧ (microEffect m x lvl tm q s).2.counter = add32 c d := by
  cases q with
  | writeCounter tm' d c => exact .inr ⟨tm', d, c, rfl, rfl⟩
  | _ => left; simp [microEffect, armOther, disarm, stamp]

/-- Only micro-step 13 announces. -/
theorem microEffect_notifies (m : Mode) (x : Channel) (lvl : Bool) (tm : Stamp) (q : Micro) (s : State) :
    (microEffect m x lvl tm q s).2.notifies = s.notifies ∨
      ∃ v, (microEffect m x lvl tm q s).2.notifies = s.notifies ++ [v] := by
  cases q with
  | outputNotify tm' c => exact .inr ⟨c, rfl⟩
  | _ => left; simp [microEffect, armOther, disarm, stamp]

theorem State.withInput_flight (s : State) (evs : List Event) (x : Channel) :
    ({ s with input := evs } : State).flight x = s.flight x := by cases x <;> rfl

/-- Settles O56: the effect of the micro-step leaves these alone, and the index it then sets is the channel's own. -/
theorem microStepFrame : Obligations.MicroStepFrame := by
  intro x lvl t s u h
  obtain ⟨-, f, hf, rfl⟩ := microStep_next h
  obtain ⟨⟨hholdoff, hlsn, hmode⟩, ⟨hvA, hvB⟩, hatt, hhold, hresults, hput, hlast, hflight⟩ :=
    microEffect_keeps f.mode x lvl t f.next s
  refine ⟨(State.setFlight_put ..).trans hput, (State.setFlight_last ..).trans hlast,
    (State.setFlight_flight_opp ..).trans hflight, (State.setFlight_holdoff ..).trans hholdoff,
    (State.setFlight_lsn ..).trans hlsn, (State.setFlight_mode ..).trans hmode, (State.setFlight_validA ..).trans hvA,
    (State.setFlight_validB ..).trans hvB, (State.setFlight_att ..).trans hatt, (State.setFlight_hold ..).trans hhold,
    (State.setFlight_results ..).trans hresults, ?_⟩
  obtain hc | ⟨tm, d, c, hq, hc⟩ := microEffect_counter f.mode x lvl t f.next s
  · exact .inl ((State.setFlight_counter ..).trans hc)
  · exact .inr ⟨f, tm, d, c, hf, hq, (State.setFlight_counter ..).trans hc⟩

/-- Settles O57: outside `QUAD` channel B's policy is to arm the other channel and not to resolve, so each of the five micro-steps goes on to another
of them or ends the handler. -/
theorem nonResolvingHandlerNeverCounts : Obligations.NonResolvingHandlerNeverCounts := by
  intro lvl t s u f hf hm hq h
  have hpolicy : (policy f.mode .b).armsOther = true ∧ (policy f.mode .b).resolves = false := by
    cases hfm : f.mode with
    | std | dbl => exact ⟨rfl, rfl⟩
    | quad => exact absurd hfm hm
  obtain ⟨harms, hresolves⟩ := hpolicy
  obtain ⟨-, g, hg, rfl⟩ := microStep_next h
  obtain rfl : f = g := Option.some.inj (hf.symm.trans hg)
  obtain hq | ⟨tm, hq⟩ | ⟨tm, sg, hq⟩ | ⟨tm, hq⟩ | ⟨tm, hq⟩ := hq
  · simp [hq, microEffect]
  · simp [hq, microEffect, harms]
  · simp [hq, microEffect, afterArming, hresolves, armOther]
  · simp [hq, microEffect, disarm]
  · simp [hq, microEffect, stamp]

/-! ## The event performed (R67, R233) -/

/-- The events behind are not looked at to decide whether an edge waits. -/
theorem waitsForFlight_withInput (i : Instr) (s : State) (evs : List Event) :
    waitsForFlight i { s with input := evs } = waitsForFlight i s := by
  cases i <;> rfl

theorem waitsForFlight_edgeRow (x : Channel) (m : Mode) (lvl : Bool) (t : Stamp) (s : State) :
    waitsForFlight (edgeRow x m lvl t) s = (s.flight x).isSome := by
  cases x <;> cases m <;> rfl

/-- No foreground operation waits (R166). -/
theorem waitsForFlight_foreground {i : Instr} (hi : i.edgeOf = none) (s : State) : waitsForFlight i s = false := by
  cases i with
  | edgeAStd _ _ | edgeADbl _ _ | edgeAQuad _ _ | edgeBStd _ _ | edgeBDbl _ _ | edgeBQuad _ _ => cases hi
  | nop | setHoldoff _ | setListener _ | readPosition | isValid | construct _ _ _ _ _ | detach | suspend | resume | readBeat _ => rfl

/-- A word that is no `SUSPEND` does not wait to be issued; a `SUSPEND` only for a handler in flight. -/
theorem suspendWaits_of_decode {w : OpWord} {i : Instr} {s : State} (hd : decode s.mode s.cfg.busW w = .ok i)
    (hi : i = .suspend → Quiet s) : suspendWaits (.op w) s = false := by
  by_contra hw
  obtain ⟨w', hw', hsuspend, hq⟩ := suspendWaits_iff.1 (eq_true_of_ne_false hw)
  cases hw'
  exact hq (hi (Except.ok.inj (hd.symm.trans hsuspend)))

/-- The word of an edge whose channel has a handler in flight is taken and held. -/
theorem step_waits {s : State} {w : OpWord} {rest : List Event} {i : Instr} (hin : s.input = .op w :: rest)
    (hd : decode s.mode s.cfg.busW w = .ok i) (hw : waitsForFlight i s = true) :
    step s = .next { s with input := rest, outcome := .held } := by
  have hi : i = .suspend → Quiet s := by rintro rfl; cases hw
  rw [step_event hin (suspendWaits_of_decode hd hi)]
  exact issueWord_waits hd ((waitsForFlight_withInput i s rest).trans hw)

/-- Any other accepted word is taken and performed. -/
theorem step_performs {s : State} {w : OpWord} {rest : List Event} {i : Instr} (hin : s.input = .op w :: rest)
    (hd : decode s.mode s.cfg.busW w = .ok i) (hw : waitsForFlight i s = false) (hi : i = .suspend → Quiet s) :
    step s = exec i { s with input := rest } := by
  rw [step_event hin (suspendWaits_of_decode hd hi)]
  exact issueWord_ok hd ((waitsForFlight_withInput i s rest).trans hw)

/-- Settles O8: the word is issued at once, for no `SUSPEND` waits here. -/
theorem stepPerformsTheDecodedOperation : Obligations.StepPerformsTheDecodedOperation := by
  refine ⟨fun s w rest i hin hd => ⟨step_performs hin hd, step_waits hin hd⟩, fun s i => waitsForFlight_quiet i,
    fun s w i hq hd => ?_⟩
  exact step_performs (s := s.withFetchWord 40 w) rfl hd (waitsForFlight_quiet i hq) fun _ => hq

/-! ## When a handler begins (R121, R205, R233) -/

theorem startHandler_held {x : Channel} {s : State} (hc : s.cfg.handlerAtomic = false)
    (h : s.hold = true ∨ (s.flight x).isSome = true) : startHandler x s = .next { s with outcome := .held } := by
  obtain hh | hf := h
  · simp [startHandler, hc, hh, held]
  · simp [startHandler, hc, hf, held]

theorem startHandler_ignored {x : Channel} {s : State} (hc : s.cfg.handlerAtomic = false) (hh : s.hold = false)
    (hf : s.flight x = none) (ha : s.att = false) : startHandler x s = .next { s with outcome := .done } := by
  simp [startHandler, hc, hh, hf, ha, done]

theorem startHandler_begins {x : Channel} {s : State} (hc : s.cfg.handlerAtomic = false) (hh : s.hold = false)
    (hf : s.flight x = none) (ha : s.att = true) :
    startHandler x s = .next { s.setFlight x (some { mode := s.mode, next := .inputT }) with outcome := .done } := by
  simp [startHandler, hc, hh, hf, ha, done]

theorem not_quiet_of_flight {s : State} {x : Channel} (h : (s.flight x).isSome = true) : ¬ Quiet s := by
  rintro ⟨hA, hB⟩
  cases x with
  | a => simp [hA] at h
  | b => simp [hB] at h

/-- The word 0xA000000000 is `SUSPEND` in every mode; with a handler in flight it waits. -/
theorem suspendWaits_suspend {s : State} {y : Channel} (hy : (s.flight y).isSome = true) :
    suspendWaits (.op 0xA000000000#40) s = true := by
  exact suspendWaits_iff.2 ⟨_, rfl, rfl, not_quiet_of_flight hy⟩

/-- An event that is no micro-step of a channel in flight advances no handler. -/
theorem advancesHandler_eq_false {s : State} {evs : List Event}
    (h : ∀ (x : Channel) (lvl : Bool) (t : Stamp), (s.flight x).isSome = true → Event.micro x lvl t ∉ evs) :
    ∀ e ∈ evs, advancesHandler s e = false := by
  intro e he
  by_contra hadv
  obtain ⟨x, lvl, t, rfl, hx⟩ := advancesHandler_iff.1 (eq_true_of_ne_false hadv)
  exact h x lvl t hx he

/-- Settles O54: one case per test of `startHandler`, then the edge that waits, then the `SUSPEND` that waits. -/
theorem whatWaitsForAHandler : Obligations.WhatWaitsForAHandler := by
  refine ⟨fun x s rest hin hc => ?_, fun x lvl t s rest hx hin => ?_, fun i s hi => waitsForFlight_foreground hi s,
    fun y s rest hy hin => ⟨fun hnone => ?_, fun before behind x lvl t hrest hx hbefore => ?_⟩⟩
  · have hf := s.withInput_flight rest x
    rw [step_event hin (suspendWaits_startHandler x s)]
    refine ⟨fun h => startHandler_held hc (by rwa [hf]), fun hh h ha => ?_, fun hh h ha => ?_⟩
    · exact startHandler_ignored (s := { s with input := rest }) hc hh (hf.trans h) ha
    · refine (startHandler_begins (s := { s with input := rest }) hc hh (hf.trans h) ha).trans ?_
      cases x <;> rfl
  · exact step_waits hin (decode_encode (wf_edgeRow x s.mode s.cfg.busW lvl t)) ((waitsForFlight_edgeRow ..).trans hx)
  · exact step_suspend_idle hin (suspendWaits_suspend hy) (advancesHandler_eq_false hnone)
  · subst hrest
    exact step_advance hin (suspendWaits_suspend hy) (advancesHandler_iff.2 ⟨x, lvl, t, rfl, hx⟩)
      (advancesHandler_eq_false hbefore)

/-! ## Steps that answer (R190, R195) -/

/-- A machine with a handler in flight is one of the refinement, so the micro-steps of that handler are performed. -/
theorem exists_microStep_next {s : State} {x : Channel} (lvl : Bool) (t : Stamp) (hc : s.cfg.handlerAtomic = true → Quiet s)
    (hx : (s.flight x).isSome = true) : ∃ u, microStep x lvl t s = .next u := by
  obtain ⟨f, hf⟩ := Option.isSome_iff_exists.1 hx
  cases hatomic : s.cfg.handlerAtomic with
  | true => exact absurd (hc hatomic) (not_quiet_of_flight hx)
  | false => exact ⟨_, microStep_flight hatomic hf⟩

/-- Settles O9: an accepted word is held, performed, or a `SUSPEND` that waits; then the step idles or takes a micro-step of a handler in flight. -/
theorem noOperationIsFatal : Obligations.NoOperationIsFatal := by
  refine ⟨fun i s => exists_exec_next_of_wf, fun s w rest i hc hin hd => ?_⟩
  by_cases hi : i = .suspend → Quiet s
  · cases hw : waitsForFlight i s with
    | true => exact ⟨_, step_waits hin hd hw⟩
    | false =>
      rw [step_performs hin hd hw hi]
      exact exists_exec_next_of_wf (s := { s with input := rest }) (wf_of_decode_ok hd)
  · obtain ⟨rfl, hq⟩ := Classical.not_imp.1 hi
    have hwaits : suspendWaits (.op w) s = true := suspendWaits_iff.2 ⟨w, rfl, hd, hq⟩
    rcases htake : takeAdvance s rest with _ | ⟨d, evs⟩
    · exact ⟨s, by simp [step, takeEvent, hin, hwaits, htake, idle]⟩
    · obtain ⟨hadv, before, behind, rfl, rfl, hbefore⟩ := takeAdvance_eq_some htake
      obtain ⟨x, lvl, t, rfl, hx⟩ := advancesHandler_iff.1 hadv
      rw [step_advance hin hwaits hadv hbefore]
      exact exists_microStep_next lvl t hc ((State.withInput_flight ..).symm ▸ hx)

/-- A micro-step event is refused by a machine whose handlers are atomic (log 9). -/
theorem performEvent_handlersAreAtomic {e : Event} {s : State} (hc : s.cfg.handlerAtomic = true) (he : ∀ w, e ≠ .op w) :
    performEvent e s = .refused .handlersAreAtomic := by
  cases e with
  | op w => exact absurd rfl (he w)
  | startHandler x => exact if_pos hc
  | micro x lvl t => exact if_pos hc

/-- Settles O10: with nothing in flight the step performs its first event; an accepted word is then performed, and performed well. -/
theorem onlyReservedWordsAreRefused : Obligations.OnlyReservedWordsAreRefused := by
  intro s r hc hq h
  rcases hin : s.input with _ | ⟨e, rest⟩
  · rw [step_idle hin] at h
    cases h
  · by_cases he : ∃ w, e = .op w
    · obtain ⟨w, rfl⟩ := he
      cases hd : decode s.mode s.cfg.busW w with
      | ok i =>
        obtain ⟨t, ht⟩ := noOperationIsFatal.2 s w rest i (fun _ => hq) hin hd
        rw [ht] at h
        cases h
      | error why =>
        rw [step_reservedWord hin hd] at h
        cases h
        exact .inl ⟨w, rest, why, rfl, hd, rfl⟩
    · have hop : ∀ w, e ≠ .op w := fun w hw => he ⟨w, hw⟩
      rw [step_event hin (suspendWaits_quiet e hq),
        performEvent_handlersAreAtomic (s := { s with input := rest }) hc hop] at h
      cases h
      exact .inr ⟨e, rest, rfl, hop, rfl⟩

/-! ## What every step keeps (R40, R41) -/

/-- A count announces at most once. -/
theorem notifies_of_countsAtMostOnce {s u : State} (h : CountsAtMostOnce s u) :
    u.notifies = s.notifies ∨ ∃ v, u.notifies = s.notifies ++ [v] := by
  obtain ⟨-, hn⟩ | ⟨d, -, -, hn⟩ := h
  · exact .inl hn
  · rw [hn]
    split
    · exact .inr ⟨_, rfl⟩
    · exact .inl rfl

/-- An operation announces at most one counter and returns at most one result. -/
theorem exec_outputs {i : Instr} {s t : State} (h : exec i s = .next t) :
    (t.notifies = s.notifies ∨ ∃ v, t.notifies = s.notifies ++ [v]) ∧
    (t.results = s.results ∨ ∃ v, t.results = s.results ++ [v]) := by
  obtain ⟨-, -, rfl⟩ | ⟨-, -, -, rfl⟩ | ⟨x, lvl, tm, rfl, -, -, rfl⟩ | ⟨-, rfl⟩ := exec_next h
  · exact ⟨.inl rfl, .inl rfl⟩
  · exact ⟨.inl rfl, .inl rfl⟩
  · obtain ⟨-, -, -, -, -, hresults, -⟩ := handlerOf_frame x s.mode lvl tm s
    exact ⟨notifies_of_countsAtMostOnce (handlerOf_countsAtMostOnce x s.mode lvl tm s), .inl hresults⟩
  · refine ⟨.inl (foregroundEffect_notifies i s), ?_⟩
    cases i with
    | readPosition | isValid | readBeat _ => exact .inr ⟨_, rfl⟩
    | _ => exact .inl rfl

/-- The begin of a handler emits nothing and changes no element. -/
theorem startHandler_keeps {x : Channel} {s t : State} (h : startHandler x s = .next t) :
    t.cfg = s.cfg ∧ t.notifies = s.notifies ∧ t.results = s.results ∧ t.mode = s.mode ∧ t.validA = s.validA ∧
      t.validB = s.validB ∧ t.att = s.att ∧ t.hold = s.hold ∧ t.input = s.input := by
  obtain ⟨-, ⟨-, rfl⟩ | ⟨-, -, rfl⟩ | ⟨-, -, -, rfl⟩ | ⟨-, -, -, rfl⟩⟩ := startHandler_next h <;> simp

/-- Settles O14: by what the step did; the events lose the one performed. -/
theorem outputsOnlyGrow : Obligations.OutputsOnlyGrow := by
  intro s t h
  obtain ⟨rfl, -⟩ | ⟨w, rest, i, hin, -, -, rfl⟩ | ⟨w, rest, i, hin, -, -, -, hexec⟩ | ⟨x, rest, hin, hstart⟩ |
    ⟨x, lvl, tm, evs, hnext, hmicro⟩ := step_next h
  · exact ⟨.inl rfl, .inl rfl, rfl, .inl rfl⟩
  · exact ⟨.inl rfl, .inl rfl, rfl, .inr ⟨[], _, rest, hin, rfl, .inl rfl⟩⟩
  · obtain ⟨hnotifies, hresults⟩ := exec_outputs hexec
    obtain ⟨hcfg, -, -, hinput⟩ := exec_frame hexec
    exact ⟨hnotifies, hresults, hcfg, .inr ⟨[], _, rest, hin, hinput, .inl rfl⟩⟩
  · obtain ⟨hcfg, hnotifies, hresults, -, -, -, -, -, hinput⟩ := startHandler_keeps hstart
    exact ⟨.inl hnotifies, .inl hresults, hcfg, .inr ⟨[], _, rest, hin, hinput, .inl rfl⟩⟩
  · have hinput : t.input = evs := performEvent_input (e := .micro x lvl tm) hmicro
    obtain ⟨-, f, -, rfl⟩ := microStep_next hmicro
    obtain ⟨-, hcfg⟩ := microEffect_frame f.mode x lvl tm f.next { s with input := evs }
    obtain ⟨-, -, -, -, hresults, -⟩ := microEffect_keeps f.mode x lvl tm f.next { s with input := evs }
    have hnotifies := microEffect_notifies f.mode x lvl tm f.next { s with input := evs }
    refine ⟨by simpa using hnotifies, .inl (by simpa using hresults), by simpa using hcfg, .inr ?_⟩
    obtain hin | ⟨e, before, behind, hin, rfl, hwaits, hadv, -⟩ := hnext
    · exact ⟨[], _, evs, hin, hinput, .inl rfl⟩
    · obtain ⟨w, rfl, hd, -⟩ := suspendWaits_iff.1 hwaits
      obtain ⟨x', lvl', tm', heq, hx⟩ := advancesHandler_iff.1 hadv
      cases heq
      exact ⟨.op w :: before, _, behind, hin, hinput, .inr ⟨w, before, x, lvl, tm, rfl, hd, rfl, hx⟩⟩

/-- Only a `CONSTRUCT` writes `mode` (R30). -/
theorem exec_mode_of_ne_construct {i : Instr} {s t : State} (hc : ∀ m lvlA lvlB vA vB, i ≠ .construct m lvlA lvlB vA vB)
    (h : exec i s = .next t) : t.mode = s.mode := by
  obtain ⟨-, -, rfl⟩ | ⟨-, -, -, rfl⟩ | ⟨x, lvl, tm, rfl, -, -, rfl⟩ | ⟨-, rfl⟩ := exec_next h
  · rfl
  · rfl
  · obtain ⟨-, ⟨-, -, hmode⟩, -⟩ := handlerOf_frame x s.mode lvl tm s
    exact hmode
  · cases i with
    | construct m lvlA lvlB vA vB => exact absurd rfl (hc m lvlA lvlB vA vB)
    | _ => rfl

/-- Settles O25: an operation that is no `CONSTRUCT` keeps the three and can only clear `att`; a handler's begin and its micro-steps touch none. -/
theorem onlyConstructChangesModeOrValidityOrReattaches : Obligations.OnlyConstructChangesModeOrValidityOrReattaches := by
  intro s t h
  obtain ⟨rfl, -⟩ | ⟨w, rest, i, -, -, -, rfl⟩ | ⟨w, rest, i, hin, hd, -, -, hexec⟩ | ⟨x, rest, -, hstart⟩ |
    ⟨x, lvl, tm, evs, -, hmicro⟩ := step_next h
  · exact .inr ⟨rfl, rfl, rfl, id⟩
  · exact .inr ⟨rfl, rfl, rfl, id⟩
  · by_cases hc : ∃ m lvlA lvlB vA vB, i = .construct m lvlA lvlB vA vB
    · obtain ⟨m, lvlA, lvlB, vA, vB, rfl⟩ := hc
      exact .inl ⟨w, rest, m, lvlA, lvlB, vA, vB, hin, hd⟩
    · have hne : ∀ m lvlA lvlB vA vB, i ≠ .construct m lvlA lvlB vA vB :=
        fun m lvlA lvlB vA vB hi => hc ⟨m, lvlA, lvlB, vA, vB, hi⟩
      have hmode := exec_mode_of_ne_construct hne hexec
      obtain ⟨hvA, hvB, hatt⟩ := exec_valid_att_of_ne_construct hne hexec
      refine .inr ⟨hmode, hvA, hvB, fun ha => ?_⟩
      obtain hatt | ⟨-, hatt⟩ := hatt
      · exact hatt.trans ha
      · exact hatt
  · obtain ⟨-, -, -, hmode, hvA, hvB, hatt, -⟩ := startHandler_keeps hstart
    exact .inr ⟨hmode, hvA, hvB, hatt.trans⟩
  · obtain ⟨-, -, -, -, -, hmode, hvA, hvB, hatt, -⟩ := microStepFrame x lvl tm _ t hmicro
    exact .inr ⟨hmode, hvA, hvB, hatt.trans⟩

/-! ## The invariant -/

/-- Settles O12: nothing is in flight or masked, and both pins are valid. -/
theorem resetMeetsTheInvariant : Obligations.ResetMeetsTheInvariant where
  quiet _ := ⟨rfl, rfl⟩
  masked_quiet h := by cases h
  attached_valid _ := ⟨rfl, rfl⟩
  putB_zero _ _ := rfl
  invalid_zero _ h := by cases h

/-- The invariant speaks neither of the events nor of the recorded outcome. -/
theorem inv_withInput_outcome {s : State} (h : Inv s) (evs : List Event) (o : OpOutcome) :
    Inv { s with input := evs, outcome := o } :=
  ⟨h.quiet, h.masked_quiet, h.attached_valid, h.putB_zero, h.invalid_zero⟩

/-- Outside `QUAD` no handler predicts for channel B (R25). -/
theorem handlerOf_putB {m : Mode} (hm : m ≠ .quad) (x : Channel) (lvl : Bool) (t : Stamp) (s : State) :
    (handlerOf x m lvl t s).putB = s.putB := by
  match x, m with
  | .a, m =>
    obtain ⟨-, -, -, -, -, -, hput, -⟩ := handlerOf_frame .a m lvl t s
    exact hput
  | .b, .std | .b, .dbl => rfl
  | .b, .quad => exact absurd rfl hm

/-- A performed handler keeps the invariant: it is attached, so the decoder is valid. -/
theorem handlerOf_inv {s : State} (h : Inv s) (ha : s.att = true) (x : Channel) (lvl : Bool) (t : Stamp) :
    Inv (handlerOf x s.mode lvl t s) := by
  obtain ⟨hcfg, ⟨-, -, hmode⟩, ⟨hvA, hvB⟩, hatt, hhold, -, -, -, hfA, hfB, -⟩ := handlerOf_frame x s.mode lvl t s
  obtain ⟨hA, hB⟩ := h.attached_valid ha
  constructor
  case quiet => rw [hcfg, Quiet, hfA, hfB]; exact h.quiet
  case masked_quiet => rw [hhold, Quiet, hfA, hfB]; exact h.masked_quiet
  case attached_valid => rw [hatt, hvA, hvB]; exact h.attached_valid
  case putB_zero =>
    rw [hcfg, hmode]
    exact fun hc hm => (handlerOf_putB hm x lvl t s).trans (h.putB_zero hc hm)
  case invalid_zero =>
    rw [hvA, hvB, hA, hB]
    exact fun _ hv => by cases hv

/-- A foreground operation keeps the invariant, where a `SUSPEND` is performed with nothing in flight. -/
theorem foregroundEffect_inv {i : Instr} {s : State} (h : Inv s) (hi : i = .suspend → Quiet s) :
    Inv (foregroundEffect i s) := by
  obtain ⟨hquiet, hmasked, hvalid, hputB, hzero⟩ := h
  cases i with
  | construct m lvlA lvlB vA vB =>
    exact ⟨hquiet, nofun, fun hatt => Bool.and_eq_true_iff.1 hatt, fun _ _ => rfl, fun _ _ => rfl⟩
  | detach => exact ⟨hquiet, hmasked, nofun, hputB, hzero⟩
  | suspend => exact ⟨hquiet, fun _ => hi rfl, hvalid, hputB, hzero⟩
  | resume => exact ⟨hquiet, nofun, hvalid, hputB, hzero⟩
  | _ => exact ⟨hquiet, hmasked, hvalid, hputB, hzero⟩

theorem exec_inv {i : Instr} {s t : State} (hs : Inv s) (hi : i = .suspend → Quiet s) (h : exec i s = .next t) : Inv t := by
  obtain ⟨-, -, rfl⟩ | ⟨-, -, -, rfl⟩ | ⟨x, lvl, tm, rfl, -, ha, rfl⟩ | ⟨-, rfl⟩ := exec_next h
  · exact inv_withInput_outcome hs s.input .held
  · exact inv_withInput_outcome hs s.input .done
  · exact inv_withInput_outcome (handlerOf_inv hs ha x lvl tm) _ .done
  · exact inv_withInput_outcome (foregroundEffect_inv hs hi) _ .done

/-- On a machine of the refinement with `hold = 0` the invariant is that the handlers are attached only when both pins are valid. -/
theorem inv_of_refinement_unmasked {s : State} (hc : s.cfg.handlerAtomic = false) (hh : s.hold = false)
    (hvalid : s.att = true → s.validA = true ∧ s.validB = true) : Inv s := by
  constructor
  case attached_valid => exact hvalid
  all_goals simp [hc, hh]

/-- No handler begins while `hold = 1`. -/
theorem startHandler_inv {x : Channel} {s t : State} (hs : Inv s) (h : startHandler x s = .next t) : Inv t := by
  obtain ⟨hcfg, -, -, -, hvA, hvB, hatt, hhold, -⟩ := startHandler_keeps h
  obtain ⟨hc, ⟨-, rfl⟩ | ⟨hh, -⟩ | ⟨hh, -⟩ | ⟨hh, -⟩⟩ := startHandler_next h
  · exact inv_withInput_outcome hs s.input .held
  all_goals
    refine inv_of_refinement_unmasked (hcfg ▸ hc) (hhold.trans hh) ?_
    rw [hatt, hvA, hvB]
    exact hs.attached_valid

/-- While `hold = 1` there is no handler to take a micro-step. -/
theorem microStep_inv {x : Channel} {lvl : Bool} {tm : Stamp} {s t : State} (hs : Inv s) (h : microStep x lvl tm s = .next t) :
    Inv t := by
  obtain ⟨-, -, -, -, -, -, hvA, hvB, hatt, hhold, -⟩ := microStepFrame x lvl tm s t h
  obtain ⟨hc, f, hf, rfl⟩ := microStep_next h
  obtain ⟨-, hcfg⟩ := microEffect_frame f.mode x lvl tm f.next s
  have hh : s.hold = false := eq_false_of_ne_true fun hmasked =>
    not_quiet_of_flight (Option.isSome_iff_exists.2 ⟨f, hf⟩) (hs.masked_quiet hmasked)
  refine inv_of_refinement_unmasked (by simp [hcfg, hc]) (hhold.trans hh) ?_
  rw [hatt, hvA, hvB]
  exact hs.attached_valid

/-- Settles O13: by what the step did. -/
theorem stepKeepsTheInvariant : Obligations.StepKeepsTheInvariant := by
  intro s t hs h
  have hinput : ∀ evs, Inv { s with input := evs } := fun evs => inv_withInput_outcome hs evs s.outcome
  obtain ⟨rfl, -⟩ | ⟨w, rest, i, -, -, -, rfl⟩ | ⟨w, rest, i, -, -, -, hi, hexec⟩ | ⟨x, rest, -, hstart⟩ |
    ⟨x, lvl, tm, evs, -, hmicro⟩ := step_next h
  · exact hs
  · exact inv_withInput_outcome hs rest .held
  · exact exec_inv (hinput rest) hi hexec
  · exact startHandler_inv (hinput rest) hstart
  · exact microStep_inv (hinput evs) hmicro

end Sys2Proof.Machine
end

section
/-! PROOFS. The statements about values (10_state.md R21, 30_encoding.md R83), construction (46_lifecycle.md R180) and what the six handlers count
(40_edge_classification.md R116, R120; 42_double.md R143; 43_quadruple.md R152; 70_reset_and_hazards.md R229). -/

namespace Sys2Proof.Machine

open Sys2Proof

/-! ## Values (R21, R82, R83) -/

/-- Settles O7: one line of R83's table per value. -/
theorem triNegationAndProduct : Obligations.TriNegationAndProduct := by
  refine ⟨fun v => ?_, ⟨rfl, rfl, rfl⟩, fun a => ⟨rfl, rfl⟩⟩
  cases v <;> rfl

theorem toInt_add_one {c : Word} (hc : c ≠ 0x7FFFFFFF#32) : (c + 1#32).toInt = c.toInt + 1 := by
  have hne : c.toNat ≠ 0x7FFFFFFF := fun h => hc (BitVec.eq_of_toNat_eq h)
  have hlt := c.isLt
  simp only [BitVec.toInt_eq_toNat_cond, BitVec.toNat_add, BitVec.toNat_ofNat]
  split <;> split <;> omega

theorem toInt_sub_one {c : Word} (hc : c ≠ 0x80000000#32) : (c - 1#32).toInt = c.toInt - 1 := by
  have hne : c.toNat ≠ 0x80000000 := fun h => hc (BitVec.eq_of_toNat_eq h)
  have hlt := c.isLt
  simp only [BitVec.toInt_eq_toNat_cond, BitVec.toNat_sub, BitVec.toNat_ofNat]
  split <;> split <;> omega

/-- Settles O34: two's complement steps by one off the end, and the two ends by evaluation. -/
theorem counterWrapsAtTheEnds : Obligations.CounterWrapsAtTheEnds := by
  refine ⟨fun c hc => ?_, fun c hc => ?_, rfl, rfl⟩
  · rw [add32_pos, toInt_add_one hc]
  · rw [add32_neg, toInt_sub_one hc]

/-! ## Construction (R180, R220) -/

theorem exec_construct (m : Mode) (lvlA lvlB vA vB : Bool) (s : State) :
    exec (.construct m lvlA lvlB vA vB) s = .next { constructed m lvlA lvlB vA vB s with outcome := .done } := rfl

/-- Settles O11: every element is written, so only the parameters and the flights of the state before are left. -/
theorem resetIsTheResultOfAConstruct : Obligations.ResetIsTheResultOfAConstruct := by
  refine ⟨rfl, fun s hcfg ⟨hA, hB⟩ => ?_⟩
  rw [exec_construct]
  simp [constructed, State.reset, hcfg, hA, hB, Params.spec, seedArms, sign, holdoffDefault, resetMode]

/-- Settles O41: the word with the code of a mode is an encoding, the code `0b11` is no mode's, and the elements are those of R180. -/
theorem constructWritesEveryElement : Obligations.ConstructWritesEveryElement := by
  refine ⟨fun n b data hrest => ⟨fun m => ?_, ?_⟩, fun m lvlA lvlB vA vB s => ?_⟩
  · obtain ⟨lvlA, lvlB, vA, vB, rfl⟩ : ∃ p q r s, data = constructData p q r s :=
      ⟨_, _, _, _, (constructData_of_rest data hrest).symm⟩
    obtain ⟨h0, h1, h2, h3, -⟩ := constructData_bits lvlA lvlB vA vB
    rw [h0, h1, h2, h3]
    exact decode_encode (i := .construct m lvlA lvlB vA vB) rfl
  · rw [decode_of_opField_construct n b (opField_opWord _ _ _)]
    simp only [formatC, auxField_opWord, dataField_opWord, hrest]
    rfl
  · rw [exec_construct]
    cases hseed : s.cfg.armSeed <;> cases m <;> simp [constructed, hseed, seedArms, sign, holdoffDefault]

/-! ## What a handler counts (R116) -/

/-- Settles O23: one row of R120's table each. -/
theorem sixHandlersAreOneProcedure : Obligations.SixHandlersAreOneProcedure := fun lvl t s =>
  ⟨handlerOf_eq_edgeProcedure .a .std lvl t s, handlerOf_eq_edgeProcedure .b .std lvl t s,
    handlerOf_eq_edgeProcedure .a .dbl lvl t s, handlerOf_eq_edgeProcedure .b .dbl lvl t s,
    handlerOf_eq_edgeProcedure .a .quad lvl t s, handlerOf_eq_edgeProcedure .b .quad lvl t s⟩

/-- The `tri` a handler adds to `counter` when its recovered arm is `r`: the direction of its channel, if its policy counts that arm. -/
def countOf (m : Mode) (x : Channel) (r sg : Tri) : Tri :=
  if (policy m x).resolves ∧ (r = .pos ∨ r = .neg ∧ (policy m x).countNeg) then directionOf x r sg else .zero

@[simp] theorem countOf_zero (m : Mode) (x : Channel) (sg : Tri) : countOf m x .zero sg = .zero := by simp [countOf]

/-- `arm[X]` as the count step of a handler of channel `x` at time `t` sees it (R114). -/
def recoveredArmOf (x : Channel) (t : Stamp) (s : State) : Tri :=
  recoveredArm (s.arm x) (s.put x) s.holdoff t (s.last x)

theorem handlerADbl_counter_eq (lvl : Bool) (t : Stamp) (s : State) :
    (handlerADbl lvl t s).counter = add32 s.counter (countOf .dbl .a (recoveredArmOf .a t s) (sign lvl)) := by
  rw [handlerADbl_eq, recoveredArmOf, State.arm_a, State.put_a, State.last_a]
  cases recoveredArm s.armA s.putA s.holdoff t s.lastA <;> simp [countOf, policy, directionOf]

/-- Exactly what each handler adds to `counter`. -/
theorem handlerOf_counter_eq (x : Channel) (m : Mode) (lvl : Bool) (t : Stamp) (s : State) :
    (handlerOf x m lvl t s).counter = add32 s.counter (countOf m x (recoveredArmOf x t s) (sign lvl)) := by
  match x, m with
  | .a, .std =>
    rw [handlerOf, handlerAStd_eq, recoveredArmOf, State.arm_a, State.put_a, State.last_a]
    cases recoveredArm s.armA s.putA s.holdoff t s.lastA <;> simp [countOf, policy, directionOf, directionA_pos]
  | .a, .dbl => exact handlerADbl_counter_eq lvl t s
  | .a, .quad =>
    rw [handlerOf, handlerAQuad_eq]
    exact handlerADbl_counter_eq lvl t s
  | .b, .std | .b, .dbl => exact (add32_zero _).symm
  | .b, .quad =>
    rw [handlerOf, handlerBQuad_eq, recoveredArmOf, State.arm_b, State.put_b, State.last_b]
    cases recoveredArm s.armB s.putB s.holdoff t s.lastB <;> simp [countOf, policy, directionOf]

/-- A count of zero is no count: a word plus a sign is another word. -/
theorem add32_eq_self {c : Word} {d : Tri} (h : add32 c d = c) : d = .zero := by
  cases d with
  | zero => rfl
  | pos => rw [add32_pos] at h; simp at h
  | neg => rw [add32_neg] at h; simp at h

/-- A disarmed channel that recovers nothing counts and announces nothing. -/
theorem handlerOf_uncounted {x : Channel} {t : Stamp} {s : State} (h : recoveredArmOf x t s = .zero) (m : Mode) (lvl : Bool) :
    (handlerOf x m lvl t s).counter = s.counter ∧ (handlerOf x m lvl t s).notifies = s.notifies := by
  have hc : (handlerOf x m lvl t s).counter = s.counter := by
    rw [handlerOf_counter_eq, h, countOf_zero, add32_zero]
  obtain hnone | ⟨d, hd, hcount, -⟩ := handlerOf_countsAtMostOnce x m lvl t s
  · exact hnone
  · exact absurd (add32_eq_self (hcount.symm.trans hc)) hd

/-- A resolving handler predicts from the recovered arm (R117). -/
theorem handlerOf_put {x : Channel} {m : Mode} (hres : (policy m x).resolves = true) (lvl : Bool) (t : Stamp) (s : State) :
    (handlerOf x m lvl t s).put x = neg3 (recoveredArmOf x t s) := by
  match x, m with
  | .a, .std => rw [handlerOf, handlerAStd_eq]; rfl
  | .a, .dbl => rw [handlerOf, handlerADbl_eq]; rfl
  | .a, .quad => rw [handlerOf, handlerAQuad_eq, handlerADbl_eq]; rfl
  | .b, .quad => rw [handlerOf, handlerBQuad_eq]; rfl
  | .b, .std | .b, .dbl => cases hres

/-- Every handler disarms its channel (R118). -/
theorem handlerOf_arm (x : Channel) (m : Mode) (lvl : Bool) (t : Stamp) (s : State) : (handlerOf x m lvl t s).arm x = .zero := by
  cases x <;> cases m <;> rfl

/-- A disarmed channel with no prediction has nothing to recover, and with `holdoff` 0 it recovers nothing. -/
theorem recoveredArmOf_of_put_zero {x : Channel} {s : State} (harm : s.arm x = .zero) (hput : s.put x = .zero) (t : Stamp) :
    recoveredArmOf x t s = .zero := by
  rw [recoveredArmOf, hput, recoveredArm_put_zero, harm]

theorem recoveredArmOf_of_holdoff_zero {x : Channel} {s : State} (harm : s.arm x = .zero) (hoff : s.holdoff = 0#32) (t : Stamp) :
    recoveredArmOf x t s = .zero := by
  rw [recoveredArmOf, hoff, recoveredArm_holdoff_zero, harm]

/-! ## The statements about counts -/

/-- An edge of a channel that recovers nothing counts nothing, whatever the gates do with it. -/
theorem exec_edgeRow_uncounted {x : Channel} {tm : Stamp} {s : State} (h : recoveredArmOf x tm s = .zero) (lvl : Bool) :
    ∃ u, exec (edgeRow x s.mode lvl tm) s = .next u ∧ u.counter = s.counter ∧ u.notifies = s.notifies := by
  cases hh : s.hold with
  | true => exact ⟨_, exec_edgeRow_held rfl hh x lvl tm, rfl, rfl⟩
  | false =>
    cases ha : s.att with
    | true => exact ⟨_, exec_edgeRow_performed rfl hh ha x lvl tm, handlerOf_uncounted h s.mode lvl⟩
    | false => exact ⟨_, exec_edgeRow_ignored rfl hh ha x lvl tm, rfl, rfl⟩

/-- Settles O30: with `holdoff` 0 a disarmed channel recovers nothing. -/
theorem holdoffZeroDisablesRecovery : Obligations.HoldoffZeroDisablesRecovery := by
  refine fun s => ⟨_, exec_setHoldoff 0#32 s, fun x lvl tm harm => ?_⟩
  exact exec_edgeRow_uncounted (recoveredArmOf_of_holdoff_zero harm rfl tm) lvl

/-- Settles O31: nothing is recovered, so the prediction is made from a disarmed channel; with that prediction nothing is recovered again. -/
theorem bounceErasesThePrediction : Obligations.BounceErasesThePrediction := by
  intro x lvl lvl' t t' s hres hh ha harm helapsed
  have hrec : recoveredArmOf x t s = .zero :=
    (recoveredArm_of_not_due fun ⟨_, _, hle⟩ => absurd helapsed (not_lt.2 hle)).trans harm
  have hput : (handlerOf x s.mode lvl t s).put x = .zero := by rw [handlerOf_put hres, hrec]; rfl
  obtain ⟨hcounter, hnotifies⟩ := handlerOf_uncounted hrec s.mode lvl
  obtain ⟨v, hv, hcounter', hnotifies'⟩ := exec_edgeRow_uncounted
    (s := { handlerOf x s.mode lvl t s with outcome := .done })
    (recoveredArmOf_of_put_zero (handlerOf_arm x s.mode lvl t s) hput t') lvl'
  exact ⟨_, v, exec_edgeRow_performed rfl hh ha x lvl t, hcounter, hnotifies, hput, hv, hcounter'.trans hcounter,
    hnotifies'.trans hnotifies⟩

/-- Settles O32: the count of the handler, and one row of the tables for each arm and level. -/
theorem directionTables : Obligations.DirectionTables := by
  intro x lvl t s a hmode hh ha harm
  have hpolicy : (policy s.mode x).resolves = true ∧ (policy s.mode x).countNeg = true := by
    obtain ⟨rfl, hm⟩ | hm := hmode
    · rw [hm]; exact ⟨rfl, rfl⟩
    · rw [hm]; cases x <;> exact ⟨rfl, rfl⟩
  obtain ⟨hres, hneg⟩ := hpolicy
  have hrec : recoveredArmOf x t s = a := harm.symm
  have hcounter : (handlerOf x s.mode lvl t s).counter = add32 s.counter (countOf s.mode x a (sign lvl)) :=
    hrec ▸ handlerOf_counter_eq x s.mode lvl t s
  refine ⟨_, exec_edgeRow_performed rfl hh ha x lvl t, (handlerOf_put hres lvl t s).trans (by rw [hrec]), ?_, ?_, ?_, ?_, ?_⟩
  · rintro rfl
    exact hcounter.trans (by rw [countOf_zero, add32_zero])
  all_goals
    rintro rfl rfl
    refine hcounter.trans ?_
    cases x <;>
      simp [countOf, hres, hneg, directionOf, directionA_pos, directionA_neg, directionB_pos, directionB_neg, add32_pos, add32_neg]

end Sys2Proof.Machine
end

section
/-! PROOFS. The statements about runs of the refinement (70_reset_and_hazards.md R232, R233): a handler in flight ends,
whatever its operands, and a `SUSPEND` issued in front of it acts after it. -/

namespace Sys2Proof.Machine

open Sys2Proof Sys2Proof.Safety

/-! ## How far a handler is from its end -/

/-- The most micro-steps a handler takes from this one on, itself included (R232). -/
def microRank : Micro → Nat
  | .inputT => 18
  | .inputLvl _ => 17
  | .armOther _ _ => 16
  | .testDisarmed _ _ => 15
  | .testHoldoff _ _ => 14
  | .testElapsed _ _ => 13
  | .readPut _ _ => 12
  | .writeRecovered _ _ _ => 11
  | .testArmed _ _ => 10
  | .testSign _ _ => 9
  | .readCounter _ _ => 8
  | .writeCounter _ _ _ => 7
  | .readListener _ _ => 6
  | .outputNotify _ _ => 5
  | .readArm _ => 4
  | .writePut _ _ => 3
  | .disarm _ => 2
  | .stamp _ => 1

theorem microRank_pos (q : Micro) : 0 < microRank q := by cases q <;> simp [microRank]

theorem microRank_le (q : Micro) : microRank q ≤ 18 := by cases q <;> simp [microRank]

theorem microRank_afterArming (m : Mode) (x : Channel) (t : Stamp) (sg : Tri) : microRank (afterArming m x t sg) ≤ 15 := by
  unfold afterArming
  split <;> simp [microRank]

theorem microRank_afterTestArmed (m : Mode) (x : Channel) (t : Stamp) (sg a : Tri) : microRank (afterTestArmed m x t sg a) ≤ 9 := by
  unfold afterTestArmed
  split <;> split <;> simp [microRank]

/-- Every micro-step comes closer to the end. -/
theorem microEffect_rank {m : Mode} {x : Channel} {lvl : Bool} {t : Stamp} {q q' : Micro} {s : State}
    (h : (microEffect m x lvl t q s).1 = some q') : microRank q' < microRank q := by
  cases q with
  | inputLvl t0 =>
    have hle := microRank_afterArming m x t0 (sign lvl)
    obtain rfl := Option.some.inj h
    split
    · simp [microRank]
    · exact Nat.lt_of_le_of_lt hle (by simp [microRank])
  | armOther t0 sg =>
    obtain rfl := Option.some.inj h
    exact Nat.lt_succ_of_le (microRank_afterArming m x t0 sg)
  | testArmed t0 sg =>
    obtain rfl := Option.some.inj h
    exact Nat.lt_succ_of_le (microRank_afterTestArmed m x t0 sg (s.arm x))
  | testDisarmed _ _ | testHoldoff _ _ | testElapsed _ _ | readListener _ _ =>
    obtain rfl := Option.some.inj h
    split <;> simp [microRank]
  | stamp _ => cases h
  | _ =>
    obtain rfl := Option.some.inj h
    simp [microRank]

/-- A micro-step of a handler in flight ends it or brings it closer to its end. -/
theorem microStep_flight_self {x : Channel} {lvl : Bool} {t : Stamp} {s u : State} {f : Flight} (hf : s.flight x = some f)
    (h : microStep x lvl t s = .next u) :
    u.flight x = none ∨ ∃ g, u.flight x = some g ∧ microRank g.next < microRank f.next := by
  obtain ⟨-, f', hf', rfl⟩ := microStep_next h
  obtain rfl : f = f' := Option.some.inj (hf.symm.trans hf')
  have hflight := (microEffect f.mode x lvl t f.next s).2.setFlight_flight_self x
    ((microEffect f.mode x lvl t f.next s).1.map fun n => { mode := f.mode, next := n })
  rcases hq : (microEffect f.mode x lvl t f.next s).1 with _ | q
  · rw [hq] at hflight
    exact .inl hflight
  · rw [hq] at hflight
    exact .inr ⟨_, hflight, microEffect_rank hq⟩

/-! ## Runs of micro-steps -/

/-- A micro-step with others behind it. -/
theorem step_micro {x : Channel} {lvl : Bool} {t : Stamp} (s : State) (evs : List Event) :
    step { s with input := .micro x lvl t :: evs } = withInput evs (microStep x lvl t s) := by
  rw [step_event (s := { s with input := .micro x lvl t :: evs }) rfl (suspendWaits_micro x lvl t _)]
  exact microStep_withInput x lvl t s evs

/-- A run goes on after its first micro-step. -/
theorem run_micro {x : Channel} {lvl : Bool} {t : Stamp} {s u : State} (h : microStep x lvl t s = .next u) (n : Nat)
    (evs : List Event) :
    Host.Core.run core (n + 1) { s with input := .micro x lvl t :: evs } = Host.Core.run core n { u with input := evs } := by
  rw [run_succ, step_micro, h]
  rfl

/-- The micro-steps of channel `x` with the first `n` of the operands `inputs`. -/
def microEvents (x : Channel) (inputs : Nat → Bool × Stamp) (n : Nat) : List Event :=
  (List.range n).map fun k => .micro x (inputs k).1 (inputs k).2

theorem microEvents_succ (x : Channel) (inputs : Nat → Bool × Stamp) (n : Nat) :
    microEvents x inputs (n + 1) = .micro x (inputs 0).1 (inputs 0).2 :: microEvents x (fun k => inputs (k + 1)) n := by
  simp [microEvents, List.range_succ_eq_map, Function.comp_def]

/-- A handler in flight ends, by induction on how far it is from its end, whatever the operands of its micro-steps. -/
theorem flight_ends (x : Channel) (rest : List Event) (k : Nat) : ∀ (s : State) (f : Flight) (inputs : Nat → Bool × Stamp),
    s.cfg.handlerAtomic = false → s.flight x = some f → microRank f.next ≤ k →
    ∃ n v, n ≤ k ∧ Host.Core.run core n { s with input := microEvents x inputs n ++ rest } = .next v ∧
      v.flight x = none ∧ v.flight (opp x) = s.flight (opp x) ∧ v.input = rest := by
  induction k with
  | zero => exact fun s f inputs hc hf hk => absurd (microRank_pos f.next) (Nat.not_lt.2 hk)
  | succ k ih =>
    intro s f inputs hc hf hk
    obtain ⟨u, hu⟩ : ∃ u, microStep x (inputs 0).1 (inputs 0).2 s = .next u := ⟨_, microStep_flight hc hf⟩
    obtain ⟨-, -, hopp, -⟩ := microStepFrame x _ _ s u hu
    obtain hend | ⟨g, hg, hrank⟩ := microStep_flight_self hf hu
    · refine ⟨1, { u with input := rest }, Nat.le_add_left 1 k, ?_, ?_, ?_, rfl⟩
      · rw [microEvents_succ]
        exact run_micro hu 0 rest
      · rw [State.withInput_flight, hend]
      · rw [State.withInput_flight, hopp]
    · have hcu : u.cfg.handlerAtomic = false := by
        obtain ⟨-, f', -, rfl⟩ := microStep_next hu
        rw [← hc]
        simpa using congrArg Params.handlerAtomic (microEffect_frame f'.mode x _ _ f'.next s).2
      obtain ⟨n, v, hn, hrun, hend, hopp', hinput⟩ := ih u g (fun i => inputs (i + 1)) hcu hg (by omega)
      refine ⟨n + 1, v, Nat.succ_le_succ hn, ?_, hend, hopp'.trans hopp, hinput⟩
      rw [microEvents_succ, List.cons_append, run_micro hu, hrun]

/-! ## A `SUSPEND` in front of the micro-steps (R166) -/

/-- While it waits, the first micro-step behind it is performed as if it were not there. -/
theorem run_suspend_micro {x : Channel} {lvl : Bool} {t : Stamp} {s u : State} (h : microStep x lvl t s = .next u) (n : Nat)
    (evs : List Event) :
    Host.Core.run core (n + 1) { s with input := .op 0xA000000000#40 :: .micro x lvl t :: evs } =
      Host.Core.run core n { u with input := .op 0xA000000000#40 :: evs } := by
  obtain ⟨-, f, hf, -⟩ := microStep_next h
  have hx : (s.flight x).isSome = true := Option.isSome_iff_exists.2 ⟨f, hf⟩
  have hstep : step { s with input := .op 0xA000000000#40 :: .micro x lvl t :: evs } =
      withInput (.op 0xA000000000#40 :: evs) (microStep x lvl t s) := by
    rw [step_advance (before := []) rfl (suspendWaits_suspend (y := x) (by rwa [State.withInput_flight]))
      (advancesHandler_iff.2 ⟨x, lvl, t, rfl, by rwa [State.withInput_flight]⟩) (fun _ hc => by cases hc)]
    exact microStep_withInput x lvl t s _
  rw [run_succ, hstep, h]
  rfl

/-- With nothing in flight it acts. -/
theorem run_suspend_quiet {s : State} (hq : Quiet s) (rest : List Event) :
    Host.Core.run core 1 { s with input := .op 0xA000000000#40 :: rest } =
      .next { s with input := rest, hold := true, outcome := .done } := by
  rw [run_succ, step_performs (s := { s with input := .op 0xA000000000#40 :: rest }) (i := .suspend) rfl rfl rfl fun _ => hq]
  rfl

/-- Settles O55: by induction on the micro-steps in front of which the `SUSPEND` waits; then by how far a handler can be from its end. -/
theorem suspendActsAfterTheHandlersInFlight : Obligations.SuspendActsAfterTheHandlersInFlight := by
  refine ⟨fun s v ms rest => ?_, fun x s inputs rest hc hx => ?_⟩
  · intro micros
    induction ms generalizing s with
    | nil =>
      intro hrun hq
      obtain rfl := Host.Outcome.next.inj hrun
      exact run_suspend_quiet hq rest
    | cons q ms ih =>
      intro hrun hq
      obtain ⟨x, lvl, t⟩ := q
      cases hmicro : microStep x lvl t s with
      | next u =>
        refine (run_suspend_micro hmicro _ _).trans (ih u ?_ hq)
        exact (run_micro hmicro _ _).symm.trans hrun
      | fault f => cases f
      | refused r =>
        have hrefused : Host.Core.run core (ms.length + 1) { s with input := micros ++ rest } = .refused r := by
          rw [run_succ]
          refine (congrArg (thenRun · _) (step_micro s _)).trans ?_
          rw [hmicro]
          rfl
        cases hrefused.symm.trans hrun
  · obtain ⟨f, hf⟩ := Option.isSome_iff_exists.1 hx
    obtain ⟨n, v, hn, hrun, hend⟩ := flight_ends x rest 18 s f inputs hc hf (microRank_le f.next)
    exact ⟨n, v, hn, hrun, hend⟩

end Sys2Proof.Machine
end

section
/-! PROOFS. The statement that every atomic edge is a run of the refinement (70_reset_and_hazards.md R233): from each micro-step
on, where the rest of the handler ends, from the last micro-step back to the first. -/

namespace Sys2Proof.Machine

open Sys2Proof Sys2Proof.Safety

/-! ## The state between two micro-steps -/

/-- `s` with the handler of channel `x`, of mode `m`, in flight before micro-step `q`, or at its end. -/
def atMicro (m : Mode) (x : Channel) (q : Option Micro) (s : State) : State :=
  { s.setFlight x (q.map fun n => { mode := m, next := n }) with outcome := .done }

/-- No micro-step looks at the handlers in flight or at the recorded outcome. -/
theorem microEffect_atMicro (m : Mode) (x : Channel) (lvl : Bool) (t : Stamp) (q : Micro) (r : Option Micro) (s : State) :
    (microEffect m x lvl t q (atMicro m x r s)).1 = (microEffect m x lvl t q s).1 ∧
      ∀ r', atMicro m x r' (microEffect m x lvl t q (atMicro m x r s)).2 = atMicro m x r' (microEffect m x lvl t q s).2 := by
  cases q <;> cases x <;> exact ⟨rfl, fun _ => rfl⟩

/-- A micro-step takes the handler from one micro-step to the next. -/
theorem microStep_atMicro {m : Mode} {x : Channel} {lvl : Bool} {t : Stamp} {q : Micro} {s : State}
    (hc : s.cfg.handlerAtomic = false) :
    microStep x lvl t (atMicro m x (some q) s) =
      .next (atMicro m x (microEffect m x lvl t q s).1 (microEffect m x lvl t q s).2) := by
  have hflight : (atMicro m x (some q) s).flight x = some { mode := m, next := q } := by cases x <;> rfl
  have hc' : (atMicro m x (some q) s).cfg.handlerAtomic = false := by cases x <;> exact hc
  obtain ⟨hnext, heffect⟩ := microEffect_atMicro m x lvl t q (some q) s
  rw [microStep_flight hc' hflight, ← hnext, ← heffect]
  rfl

/-! ## Where a handler ends -/

section
variable (m : Mode) (x : Channel) (lvl : Bool) (t : Stamp)

/-- From micro-step `q` on, with the operands `lvl` and `t`, the handler of channel `x` in mode `m` takes the registers and outputs of `s` to
those of `u`, in no more micro-steps than it has left. -/
def EndsIn (q : Micro) (s u : State) : Prop :=
  ∃ n ≤ microRank q, runEvents (atMicro m x (some q) s) (List.replicate n (.micro x lvl t)) =
    .next { atMicro m x none u with input := [] }

variable {m x lvl t}

/-- What a run of micro-steps does is what the first does and then the others. -/
theorem runEvents_micro {q : Micro} {s : State} (hc : s.cfg.handlerAtomic = false) (n : Nat) :
    runEvents (atMicro m x (some q) s) (List.replicate (n + 1) (.micro x lvl t)) =
      runEvents (atMicro m x (microEffect m x lvl t q s).1 (microEffect m x lvl t q s).2) (List.replicate n (.micro x lvl t)) := by
  have hlength : ∀ k, (List.replicate k (Event.micro x lvl t)).length = k := fun k => List.length_replicate
  unfold runEvents
  rw [hlength, hlength]
  exact run_micro (microStep_atMicro hc) n (List.replicate n (.micro x lvl t))

/-- The last micro-step. -/
theorem endsIn_of_none {q : Micro} {s u : State} (hc : s.cfg.handlerAtomic = false)
    (h : microEffect m x lvl t q s = (none, u)) : EndsIn m x lvl t q s u := by
  refine ⟨1, microRank_pos q, ?_⟩
  rw [runEvents_micro hc 0, h]
  rfl

/-- Any other. -/
theorem endsIn_of_some {q q' : Micro} {s s' u : State} (hc : s.cfg.handlerAtomic = false)
    (h : microEffect m x lvl t q s = (some q', s')) (h' : EndsIn m x lvl t q' s' u) : EndsIn m x lvl t q s u := by
  obtain ⟨n, hn, hrun⟩ := h'
  have hrank : microRank q' < microRank q := microEffect_rank (congrArg Prod.fst h)
  refine ⟨n + 1, hn.trans_lt hrank, ?_⟩
  rw [runEvents_micro hc n, h, hrun]

/-! ## The micro-steps of R232, from the last -/

/-- disarm and stamp, which every handler ends with. -/
theorem endsIn_disarm {s : State} (hc : s.cfg.handlerAtomic = false) :
    EndsIn m x lvl t (.disarm t) s (stamp x t (disarm x s)) :=
  endsIn_of_some hc rfl (endsIn_of_none ((State.setArm_cfg ..).symm ▸ hc) rfl)

/-- predict, disarm and stamp. -/
theorem endsIn_readArm {s : State} (hc : s.cfg.handlerAtomic = false) :
    EndsIn m x lvl t (.readArm t) s (stamp x t (disarm x (predict x s))) :=
  endsIn_of_some hc rfl (endsIn_of_some hc rfl (endsIn_disarm ((State.setPut_cfg ..).symm ▸ hc)))

/-- The `Notify` of a count, if a listener is installed. -/
theorem endsIn_readListener {s : State} (hc : s.cfg.handlerAtomic = false) (c : Word) :
    EndsIn m x lvl t (.readListener t c) s (stamp x t (disarm x (predict x (if s.lsn then s.emitNotify c else s)))) := by
  cases hlsn : s.lsn with
  | true =>
    exact endsIn_of_some (q' := .outputNotify t c) hc (by simp [microEffect, hlsn])
      (endsIn_of_some hc rfl (endsIn_readArm (s := s.emitNotify c) hc))
  | false => exact endsIn_of_some hc (by simp [microEffect, hlsn]) (endsIn_readArm hc)

/-- A count with direction `d`. -/
theorem endsIn_readCounter {s : State} (hc : s.cfg.handlerAtomic = false) (d : Tri) :
    EndsIn m x lvl t (.readCounter t d) s (stamp x t (disarm x (predict x (count d s)))) :=
  endsIn_of_some hc rfl (endsIn_of_some hc rfl (endsIn_readListener (s := s.setCounter (add32 s.counter d)) hc _))

/-- The count step of R120: by the policy of the channel, in the direction of its convention. -/
def resolveCount (m : Mode) (x : Channel) (sg : Tri) (s : State) : State :=
  if s.arm x = .pos ∨ (s.arm x = .neg ∧ (policy m x).countNeg) then
    count (mulSign (mulSign (s.arm x) sg) (policy m x).conv) s
  else s

/-- The direction a second read of `arm[X]` gives is that of R120's convention. -/
theorem directionOf_eq_mulSign {a : Tri} (hneg : (policy m x).countNeg = true) (ha : a ≠ .zero) (lvl : Bool) :
    directionOf x a (sign lvl) = mulSign (mulSign a (sign lvl)) (policy m x).conv := by
  have hs := sign_ne_zero lvl
  match x, m with
  | .a, .dbl | .a, .quad => exact directionA_eq_mulSign a (sign lvl) ha hs
  | .b, .quad => exact directionB_eq_neg3_mulSign a (sign lvl) ha hs
  | .a, .std | .b, .std | .b, .dbl => cases hneg

/-- Where negative arms do not count, the direction is the sign of the pin. -/
theorem mulSign_conv_of_countNeg_eq_false (hres : (policy m x).resolves = true) (hneg : (policy m x).countNeg = false) (lvl : Bool) :
    mulSign (mulSign .pos (sign lvl)) (policy m x).conv = sign lvl := by
  match x, m with
  | .a, .std => cases lvl <;> rfl
  | .b, .std | .b, .dbl => cases hres
  | .a, .dbl | .a, .quad | .b, .quad => cases hneg

/-- The tests of `arm[X]` and the count they lead to. -/
theorem endsIn_testArmed {s : State} (hc : s.cfg.handlerAtomic = false) (hres : (policy m x).resolves = true) (lvl' : Bool) :
    EndsIn m x lvl t (.testArmed t (sign lvl')) s (stamp x t (disarm x (predict x (resolveCount m x (sign lvl') s)))) := by
  cases hneg : (policy m x).countNeg with
  | true =>
    by_cases ha : s.arm x = .zero
    · have hcount : resolveCount m x (sign lvl') s = s := if_neg (by simp [ha])
      rw [hcount]
      exact endsIn_of_some hc (by rw [microEffect, afterTestArmed, if_pos hneg, if_pos ha]) (endsIn_readArm hc)
    · have hcounts : s.arm x = .pos ∨ s.arm x = .neg ∧ (policy m x).countNeg := by
        cases h : s.arm x <;> simp_all
      have hcount : resolveCount m x (sign lvl') s = count (directionOf x (s.arm x) (sign lvl')) s := by
        rw [resolveCount, if_pos hcounts, directionOf_eq_mulSign hneg ha]
      rw [hcount]
      exact endsIn_of_some hc (by rw [microEffect, afterTestArmed, if_pos hneg, if_neg ha])
        (endsIn_of_some hc rfl (endsIn_readCounter hc _))
  | false =>
    have hnot : ¬ (policy m x).countNeg = true := ne_true_of_eq_false hneg
    by_cases ha : s.arm x = .pos
    · have hcount : resolveCount m x (sign lvl') s = count (sign lvl') s := by
        rw [resolveCount, if_pos (.inl ha), ha, mulSign_conv_of_countNeg_eq_false hres hneg]
      rw [hcount]
      exact endsIn_of_some hc (by rw [microEffect, afterTestArmed, if_neg hnot, if_pos ha]) (endsIn_readCounter hc _)
    · have hcount : resolveCount m x (sign lvl') s = s := if_neg (by simp [ha, hneg])
      rw [hcount]
      exact endsIn_of_some hc (by rw [microEffect, afterTestArmed, if_neg hnot, if_neg ha]) (endsIn_readArm hc)

/-- The three tests of the recover step (R114) and what follows. -/
theorem endsIn_testDisarmed {s : State} (hc : s.cfg.handlerAtomic = false) (hres : (policy m x).resolves = true) (lvl' : Bool) :
    EndsIn m x lvl t (.testDisarmed t (sign lvl')) s (stamp x t (disarm x (edgeResolve (policy m x) x (sign lvl') t s))) := by
  have hresolve : edgeResolve (policy m x) x (sign lvl') t s = predict x (resolveCount m x (sign lvl') (recover x t s)) := rfl
  have hkeep : recoveryDue (s.arm x) s.holdoff t (s.last x) = false →
      EndsIn m x lvl t (.testArmed t (sign lvl')) s (stamp x t (disarm x (edgeResolve (policy m x) x (sign lvl') t s))) := by
    intro hdue
    rw [hresolve, recover, hdue]
    exact endsIn_testArmed hc hres lvl'
  by_cases harm : s.arm x = .zero
  · refine endsIn_of_some (q' := .testHoldoff t (sign lvl')) (s' := s) hc (by simp [microEffect, harm]) ?_
    cases hoff : recoveryEnabled s.holdoff with
    | false =>
      exact endsIn_of_some hc (by simp [microEffect, hoff]) (hkeep (by simp [recoveryDue, hoff]))
    | true =>
      refine endsIn_of_some (q' := .testElapsed t (sign lvl')) (s' := s) hc (by simp [microEffect, hoff]) ?_
      cases helapsed : holdoffPassed s.holdoff t (s.last x) with
      | false =>
        exact endsIn_of_some hc (by simp [microEffect, helapsed]) (hkeep (by simp [recoveryDue, helapsed]))
      | true =>
        have hdue : recoveryDue (s.arm x) s.holdoff t (s.last x) = true := by simp [recoveryDue, harm, hoff, helapsed]
        rw [hresolve, recover, if_pos hdue]
        exact endsIn_of_some (q' := .readPut t (sign lvl')) hc (by simp [microEffect, helapsed]) (endsIn_of_some hc rfl
          (endsIn_of_some hc rfl (endsIn_testArmed ((State.setArm_cfg ..).symm ▸ hc) hres lvl')))
  · exact endsIn_of_some hc (by rw [microEffect, if_neg harm]) (hkeep (by simp [harm]))

/-- After the inputs and the arming: resolve or not, then disarm and stamp. -/
theorem endsIn_afterArming {s : State} (hc : s.cfg.handlerAtomic = false) (lvl' : Bool) :
    EndsIn m x lvl t (afterArming m x t (sign lvl')) s
      (stamp x t (disarm x (if (policy m x).resolves then edgeResolve (policy m x) x (sign lvl') t s else s))) := by
  unfold afterArming
  split
  · next hres => exact endsIn_testDisarmed hc hres lvl'
  · exact endsIn_disarm hc

/-- A whole handler, all of whose micro-steps have the same operands, is R120's procedure. -/
theorem endsIn_inputT {s : State} (hc : s.cfg.handlerAtomic = false) :
    EndsIn m x lvl t .inputT s (edgeProcedure (policy m x) x lvl t s) := by
  refine endsIn_of_some hc rfl ?_
  simp only [edgeProcedure]
  by_cases harms : (policy m x).armsOther = true
  · rw [if_pos harms]
    exact endsIn_of_some hc (by rw [microEffect, if_pos harms]) (endsIn_of_some hc rfl
      (endsIn_afterArming ((State.setArm_cfg ..).symm ▸ hc) lvl))
  · rw [if_neg harms]
    exact endsIn_of_some hc (by rw [microEffect, if_neg harms]) (endsIn_afterArming hc lvl)

end

/-! ## The statement -/

/-- A handler that has ended leaves no trace but the registers and outputs. -/
theorem atMicro_none_of_flight_eq_none {x : Channel} {s : State} (h : s.flight x = none) (m : Mode) :
    atMicro m x none s = { s with outcome := .done } := by
  cases x <;> simp_all [atMicro]

/-- Settles O53: the event begins a handler in the present mode, which ends in the registers and outputs of R120's procedure. -/
theorem atomicEdgeIsAHandlerRun : Obligations.AtomicEdgeIsAHandlerRun := by
  intro x lvl t s hc hf hh ha
  obtain ⟨n, hn, hrun⟩ := endsIn_inputT (m := s.mode) (x := x) (lvl := lvl) (t := t) hc
  rw [← handlerOf_eq_edgeProcedure] at hrun
  have hf' : (handlerOf x s.mode lvl t s).flight x = none := by
    obtain ⟨-, -, -, -, -, -, -, -, hfA, hfB, -⟩ := handlerOf_frame x s.mode lvl t s
    cases x with
    | a => exact hfA.trans hf
    | b => exact hfB.trans hf
  have hexec : exec (edgeRow x s.mode lvl t) { s with input := [] } =
      .next { atMicro s.mode x none (handlerOf x s.mode lvl t s) with input := [] } := by
    rw [exec_withInput, exec_edgeRow_performed rfl hh ha, atMicro_none_of_flight_eq_none hf']
    rfl
  refine ⟨n, _, hn, ?_, hexec⟩
  rw [runEvents_cons s _ _ (suspendWaits_startHandler x s), performEvent,
    startHandler_begins (s := { s with input := List.replicate n (.micro x lvl t) }) hc hh ((s.withInput_flight ..).trans hf) ha,
    thenRun_next, ← hrun]
  cases x <;> rfl

end Sys2Proof.Machine
end

section
/-! PROOFS. The statements about runs of operations: an invalid decoder (46_lifecycle.md R184), the wrapped read (44_counter_accessor.md R161, R165 to
R168) and the reset value of `last` (10_state.md R43). -/

namespace Sys2Proof.Safety

open Sys2Proof Sys2Proof.Machine

/-! ## Runs of operations, one after another -/

/-- A run goes on after its first operation. -/
theorem runOps_cons_next {s t : State} {o : TraceOp} (hq : Quiet s) (h : exec (o.instr s.mode) s = .next t) (ops : List TraceOp) :
    runOps s (o :: ops) = runOps t ops := by
  rw [runOps_cons s o ops hq, h, thenRun_next]

/-- A run of two sequences is a run of one and of the other. -/
theorem runOps_append {s t : State} {ops : List TraceOp} (hq : Quiet s) (h : runOps s ops = .next t) (ops' : List TraceOp) :
    runOps s (ops ++ ops') = runOps t ops' := by
  induction ops generalizing s with
  | nil =>
    obtain rfl := Host.Outcome.next.inj h
    rfl
  | cons o ops ih =>
    rw [runOps_cons s o ops hq] at h
    cases hexec : exec (o.instr s.mode) s with
    | next u =>
      rw [hexec, thenRun_next] at h
      rw [List.cons_append, runOps_cons_next hq hexec, ih (exec_quiet hexec hq) h]
    | fault f => cases f
    | refused r => rw [hexec] at h; cases h

/-! ## An invalid decoder (R184, R222) -/

/-- A decoder that can deliver nothing and has counted nothing. -/
structure Inert (m : Mode) (b : BusW) (s : State) : Prop where
  quiet : Quiet s
  mode : s.mode = m
  bus : s.cfg.busW = b
  invalid : (s.validA && s.validB) = false
  detached : s.att = false
  counter : s.counter = 0#32

/-- Every beat of 0 is 0. -/
theorem beat_zero (b : BusW) (k : Nat) : beat b k 0#32 = 0#32 := by simp [beat]

/-- Every read of an inert decoder answers 0; nothing else answers. -/
theorem foregroundEffect_inert {m : Mode} {b : BusW} {i : Instr} {s : State} (h : Inert m b s)
    (hc : ∀ m lvlA lvlB vA vB, i ≠ .construct m lvlA lvlB vA vB) :
    Inert m b (foregroundEffect i s) ∧ ∃ rs, (foregroundEffect i s).results = s.results ++ rs ∧ ∀ r ∈ rs, r = 0#32 := by
  have ⟨hq, hm, hb, hv, ha, hcounter⟩ := h
  have hnone : ∃ rs, s.results = s.results ++ rs ∧ ∀ r ∈ rs, r = 0#32 := ⟨[], (List.append_nil _).symm, nofun⟩
  have hread : ∀ v, v = 0#32 → ∃ rs, (s.emitResult v).results = s.results ++ rs ∧ ∀ r ∈ rs, r = 0#32 :=
    fun v hv => ⟨[v], rfl, by simpa using hv⟩
  cases i with
  | construct m lvlA lvlB vA vB => exact absurd rfl (hc m lvlA lvlB vA vB)
  | readPosition => exact ⟨⟨hq, hm, hb, hv, ha, hcounter⟩, hread _ hcounter⟩
  | isValid => exact ⟨⟨hq, hm, hb, hv, ha, hcounter⟩, hread _ (by rw [hv]; rfl)⟩
  | readBeat k => exact ⟨⟨hq, hm, hb, hv, ha, hcounter⟩, hread _ (by rw [hcounter, beat_zero])⟩
  | detach => exact ⟨⟨hq, hm, hb, hv, rfl, hcounter⟩, hnone⟩
  | _ => exact ⟨⟨hq, hm, hb, hv, ha, hcounter⟩, hnone⟩

theorem inert_withOutcome {m : Mode} {b : BusW} {s : State} (h : Inert m b s) (o : OpOutcome) :
    Inert m b { s with outcome := o } :=
  ⟨h.quiet, h.mode, h.bus, h.invalid, h.detached, h.counter⟩

/-- An inert decoder stays inert under every operation but a `CONSTRUCT`: its edges are held or ignored. -/
theorem exec_inert {m : Mode} {b : BusW} {i : Instr} {s t : State} (hs : Inert m b s)
    (hc : ∀ m lvlA lvlB vA vB, i ≠ .construct m lvlA lvlB vA vB) (h : exec i s = .next t) :
    Inert m b t ∧ t.notifies = s.notifies ∧ ∃ rs, t.results = s.results ++ rs ∧ ∀ r ∈ rs, r = 0#32 := by
  obtain ⟨-, -, rfl⟩ | ⟨-, -, -, rfl⟩ | ⟨x, lvl, tm, -, -, ha, -⟩ | ⟨-, rfl⟩ := exec_next h
  · exact ⟨inert_withOutcome hs .held, rfl, [], (List.append_nil _).symm, nofun⟩
  · exact ⟨inert_withOutcome hs .done, rfl, [], (List.append_nil _).symm, nofun⟩
  · cases hs.detached.symm.trans ha
  · obtain ⟨hinert, hresults⟩ := foregroundEffect_inert hs hc
    exact ⟨inert_withOutcome hinert .done, foregroundEffect_notifies i s, hresults⟩

/-- A line other than `CONSTRUCT` stands for another operation. -/
theorem instr_ne_construct {o : TraceOp} (h : ∀ n a b c d, o ≠ .construct n a b c d) (m : Mode) :
    ∀ n lvlA lvlB vA vB, o.instr m ≠ .construct n lvlA lvlB vA vB := by
  intro n lvlA lvlB vA vB heq
  cases o with
  | construct n' a b c d => exact h n' a b c d rfl
  | edge x lvl t => cases x <;> cases m <;> cases heq
  | nop | setHoldoff _ | setListener _ | readPosition | isValid | detach | suspend | resume | readBeat _ => cases heq

/-- By induction on the operations. -/
theorem runOps_inert {m : Mode} {b : BusW} (ops : List TraceOp)
    (hops : ∀ o ∈ ops, (∀ n a b c d, o ≠ .construct n a b c d) ∧ (o.instr m).wf m b = true) : ∀ s : State, Inert m b s →
    ∃ u rs, runOps s ops = .next u ∧ u.counter = 0#32 ∧ u.att = false ∧ u.notifies = s.notifies ∧
      u.results = s.results ++ rs ∧ ∀ r ∈ rs, r = 0#32 := by
  induction ops with
  | nil => exact fun s hs => ⟨_, [], rfl, hs.counter, hs.detached, rfl, (List.append_nil _).symm, nofun⟩
  | cons o ops ih =>
    intro s hs
    obtain ⟨hc, hwf⟩ := hops o (List.mem_cons_self ..)
    rw [← hs.mode, ← hs.bus] at hwf
    obtain ⟨t, ht⟩ := exists_exec_next_of_wf hwf
    obtain ⟨hinert, hnotifies, rs, hresults, hzero⟩ := exec_inert hs (instr_ne_construct hc s.mode) ht
    obtain ⟨u, rs', hrun, hcounter, hatt, hnotifies', hresults', hzero'⟩ :=
      ih (fun o' ho' => hops o' (List.mem_cons_of_mem _ ho')) t hinert
    refine ⟨u, rs ++ rs', (runOps_cons_next hs.quiet ht ops).trans hrun, hcounter, hatt, hnotifies'.trans hnotifies, ?_, ?_⟩
    · rw [hresults', hresults, List.append_assoc]
    · exact fun r hr => (List.mem_append.1 hr).elim (hzero r) (hzero' r)

/-- Settles O47: a `CONSTRUCT` with an invalid pin leaves an inert decoder. -/
theorem invalidDecoderIsInert : Obligations.InvalidDecoderIsInert := by
  intro m lvlA lvlB vA vB s ops hv hq hops
  have hinert : Inert m s.cfg.busW { constructed m lvlA lvlB vA vB s with outcome := .done } := ⟨hq, rfl, rfl, hv, hv, rfl⟩
  obtain ⟨u, rs, hrun, h⟩ := runOps_inert ops hops _ hinert
  exact ⟨u, rs, (runOps_cons_next (o := .construct m lvlA lvlB vA vB) hq rfl ops).trans hrun, h⟩

/-! ## The wrapped read (R161, R165, R167) -/

/-- `s` in the critical section, after the reads of the values `vs`. -/
def reading (s : State) (vs : List Word) (o : OpOutcome) : State :=
  { s with results := s.results ++ vs, hold := true, outcome := o, input := [] }

/-- The lines of the edges due. -/
def edgeLines (due : List (Channel × Bool × Stamp)) : List TraceOp := due.map fun q => .edge q.1 q.2.1 q.2.2

section
variable {s : State} (hq : Quiet s) (vs : List Word)
include hq

theorem quiet_reading (o : OpOutcome) : Quiet (reading s vs o) := hq

/-- Edges due in the critical section are held, and nothing but the recorded outcome changes. -/
theorem runOps_edgeLines (due : List (Channel × Bool × Stamp)) (o : OpOutcome) :
    ∃ o', runOps (reading s vs o) (edgeLines due) = .next (reading s vs o') := by
  induction due generalizing o with
  | nil => exact ⟨o, rfl⟩
  | cons q due ih =>
    obtain ⟨o', ho'⟩ := ih .held
    have hheld := exec_edgeRow_held (s := reading s vs o) rfl rfl q.1 q.2.1 q.2.2
    exact ⟨o', (runOps_cons_next (o := .edge q.1 q.2.1 q.2.2) (quiet_reading hq _ _) hheld _).trans ho'⟩

/-- A beat is read from the counter of `s`. -/
theorem runOps_readBeat {k : Nat} (hk : k < beatCount s.cfg.busW) (o : OpOutcome) :
    runOps (reading s vs o) [.readBeat (BitVec.ofNat 2 k)] = .next (reading s (vs ++ [beat s.cfg.busW k s.counter]) .done) := by
  have hle := beatCount_le_four s.cfg.busW
  have htoNat : (BitVec.ofNat 2 k).toNat = k := by rw [BitVec.toNat_ofNat, Nat.mod_eq_of_lt (by omega)]
  have hexec := exec_readBeat_of_lt (s := reading s vs o) (k := BitVec.ofNat 2 k) (htoNat.symm ▸ hk)
  rw [htoNat] at hexec
  rw [runOps_cons_next (o := .readBeat (BitVec.ofNat 2 k)) (quiet_reading hq _ _) hexec, runOps_nil]
  simp [reading]

/-- The first `n` beats are read from one and the same counter, whatever edges are due before each. -/
theorem runOps_beats (due : Nat → List (Channel × Bool × Stamp)) {n : Nat} (hn : n ≤ beatCount s.cfg.busW) (o : OpOutcome) :
    ∃ o', runOps (reading s [] o) ((List.range n).flatMap fun k => edgeLines (due k) ++ [.readBeat (BitVec.ofNat 2 k)]) =
      .next (reading s ((List.range n).map fun k => beat s.cfg.busW k s.counter) o') := by
  induction n with
  | zero => exact ⟨o, rfl⟩
  | succ n ih =>
    obtain ⟨o₁, h₁⟩ := ih (Nat.le_of_succ_le hn)
    obtain ⟨o₂, h₂⟩ := runOps_edgeLines hq _ (due n) o₁
    refine ⟨.done, ?_⟩
    rw [List.range_succ, List.flatMap_append, runOps_append (quiet_reading hq _ _) h₁, List.flatMap_singleton,
      runOps_append (quiet_reading hq _ _) h₂, runOps_readBeat hq _ hn, List.map_append]
    rfl

end

/-- Between `SUSPEND` and `RESUME` every beat of the counter is read, and the edges due are held. -/
theorem runOps_wrappedRead {s : State} (hq : Quiet s) (due : Nat → List (Channel × Bool × Stamp)) :
    runOps s ([.suspend] ++ ((List.range (beatCount s.cfg.busW)).flatMap fun k =>
        edgeLines (due k) ++ [.readBeat (BitVec.ofNat 2 k)]) ++ edgeLines (due (beatCount s.cfg.busW)) ++ [.resume]) =
      .next { s with
        results := s.results ++ (List.range (beatCount s.cfg.busW)).map fun k => beat s.cfg.busW k s.counter
        hold := false
        outcome := .done
        input := [] } := by
  obtain ⟨o₁, h₁⟩ := runOps_beats hq due le_rfl .done
  obtain ⟨o₂, h₂⟩ := runOps_edgeLines hq ((List.range (beatCount s.cfg.busW)).map fun k => beat s.cfg.busW k s.counter)
    (due (beatCount s.cfg.busW)) o₁
  have hsuspend : runOps s [.suspend] = .next (reading s [] .done) := by
    rw [runOps_cons_next (o := .suspend) hq rfl, reading, List.append_nil]
    rfl
  rw [List.append_assoc, List.append_assoc, runOps_append hq hsuspend, runOps_append (quiet_reading hq _ _) h₁,
    runOps_append (quiet_reading hq _ _) h₂, runOps_cons_next (o := .resume) (quiet_reading hq _ _) rfl]
  rfl

/-- Settles O50: the beats read are those of the one counter, so they reassemble to it; the accessor is the wrapped read with no edge due. -/
theorem wrappedReadReturnsTheCounter : Obligations.WrappedReadReturnsTheCounter := by
  refine ⟨fun s due hq => ?_, fun s hq hnative => ?_, fun s hq hnative => ⟨?_, ?_⟩⟩
  · exact ⟨_, runOps_wrappedRead hq due, reassemble_beats s.cfg.busW s.counter⟩
  · rw [accessor, if_pos hnative]
    exact runOps_cons_next (o := .readPosition) hq rfl []
  · simp [accessor, hnative]
  · have hlines : accessor s.cfg = [.suspend] ++ ((List.range (beatCount s.cfg.busW)).flatMap fun k =>
        edgeLines [] ++ [.readBeat (BitVec.ofNat 2 k)]) ++ edgeLines [] ++ [.resume] := by
      simp [accessor, hnative, edgeLines, List.map_eq_flatMap]
    rw [hlines]
    exact ⟨_, runOps_wrappedRead hq fun _ => [], by simp, reassemble_beats s.cfg.busW s.counter⟩

/-- Settles O51: at counter 255 the first beat is read, one count up carries into the next, and the others are read then. -/
theorem unwrappedReadCanTear : Obligations.UnwrappedReadCanTear :=
  ⟨{ State.reset with counter := 255#32, armA := .pos }, _, ⟨rfl, rfl⟩, rfl, rfl, rfl, rfl, rfl, rfl⟩

/-! ## The reset value of `last` (R43) -/

/-- A resolving handler whose prediction is 0 does not look at `last[X]`, and stamps it. -/
theorem handlerOf_setLast_self {x : Channel} {s : State} (hput : s.put x = .zero) (m : Mode) (lvl : Bool) (t l : Stamp) :
    handlerOf x m lvl t (s.setLast x l) = handlerOf x m lvl t s := by
  cases x with
  | a =>
    rw [State.put_a] at hput
    cases m <;> simp [handlerOf, handlerAStd_eq, handlerADbl_eq, handlerAQuad_eq, hput]
  | b =>
    rw [State.put_b] at hput
    cases m with
    | std | dbl => rfl
    | quad => simp [handlerOf, handlerBQuad_eq, hput]

/-- The other channel's handler does not touch `last[X]`. -/
theorem handlerOf_opp_setLast (x : Channel) (m : Mode) (lvl : Bool) (t l : Stamp) (s : State) :
    handlerOf (opp x) m lvl t (s.setLast x l) = (handlerOf (opp x) m lvl t s).setLast x l := by
  have hr : reads (edgeRow (opp x) m lvl t) (.last x l) = false := by cases x <;> cases m <;> rfl
  have hw : writes (edgeRow (opp x) m lvl t) (.last x l) = false := by cases x <;> cases m <;> rfl
  exact (handlerOf_write hr s).trans (if_neg (ne_true_of_eq_false hw))

theorem setLast_withOutcome (s : State) (x : Channel) (l : Stamp) (o : OpOutcome) :
    ({ s.setLast x l with outcome := o } : State) = ({ s with outcome := o } : State).setLast x l := by
  cases x <;> rfl

/-- A foreground operation reads no `last`, and writes one only as it writes every `put`. -/
theorem foreground_last {i : Instr} (hi : i.edgeOf = none) (x : Channel) (l : Stamp) (v : Tri) :
    reads i (.last x l) = false ∧ writes i (.put x v) = writes i (.last x l) := by
  cases i with
  | edgeAStd _ _ | edgeADbl _ _ | edgeAQuad _ _ | edgeBStd _ _ | edgeBDbl _ _ | edgeBQuad _ _ => cases hi
  | nop | setHoldoff _ | setListener _ | readPosition | isValid | construct _ _ _ _ _ | detach | suspend | resume | readBeat _ =>
    exact ⟨rfl, rfl⟩

/-- Two answers that are one, or next states that differ in `last[X]` only, with nothing predicted for `X`. -/
def AgreeButLast (x : Channel) (l : Stamp) (r r' : Result) : Prop :=
  r' = r ∨ ∃ t, r = .next t ∧ t.put x = .zero ∧ r' = .next (t.setLast x l)

section
variable {x : Channel} {s : State} (hput : s.put x = .zero) (l : Stamp)
include hput

/-- A `CONSTRUCT` overwrites `last[X]`; every other foreground operation keeps it, and `put[X]` with it. -/
theorem exec_foreground_setLast {i : Instr} (he : i.edgeOf = none) : AgreeButLast x l (exec i s) (exec i (s.setLast x l)) := by
  obtain ⟨hr, hw⟩ := foreground_last he x l .zero
  have hexec : exec i (s.setLast x l) = if writes i (.last x l) then exec i s else Element.writeResult (.last x l) (exec i s) :=
    exec_write hr fun h => by rw [he] at h; cases h
  by_cases hwrites : writes i (.last x l) = true
  · exact .inl (hexec.trans (if_pos hwrites))
  · rw [if_neg hwrites] at hexec
    cases hs : exec i s with
    | next t =>
      rw [hs] at hexec
      exact .inr ⟨t, rfl, (exec_holds (e := .put x .zero) (hw.trans (eq_false_of_ne_true hwrites)) hs).1 hput, hexec⟩
    | fault f => cases f
    | refused r =>
      rw [hs] at hexec
      exact .inl hexec

/-- A performed edge of channel `X` overwrites `last[X]` unread; every other edge keeps it, and `put[X]` with it. -/
theorem exec_edgeRow_setLast (y : Channel) (m : Mode) (lvl : Bool) (tm : Stamp) :
    AgreeButLast x l (exec (edgeRow y m lvl tm) s) (exec (edgeRow y m lvl tm) (s.setLast x l)) := by
  by_cases hm : s.mode = m
  · have hm' : (s.setLast x l).mode = m := (State.setLast_mode ..).trans hm
    cases hh : s.hold with
    | true =>
      rw [exec_edgeRow_held hm hh, exec_edgeRow_held hm' ((State.setLast_hold ..).trans hh), setLast_withOutcome]
      exact .inr ⟨_, rfl, hput, rfl⟩
    | false =>
      have hh' : (s.setLast x l).hold = false := (State.setLast_hold ..).trans hh
      cases ha : s.att with
      | false =>
        rw [exec_edgeRow_ignored hm hh ha, exec_edgeRow_ignored hm' hh' ((State.setLast_att ..).trans ha), setLast_withOutcome]
        exact .inr ⟨_, rfl, hput, rfl⟩
      | true =>
        rw [exec_edgeRow_performed hm hh ha, exec_edgeRow_performed hm' hh' ((State.setLast_att ..).trans ha)]
        obtain rfl | rfl := eq_self_or_opp x y
        · exact .inl (by rw [handlerOf_setLast_self hput])
        · obtain ⟨-, -, -, -, -, -, hkept, -⟩ := handlerOf_frame (opp x) m lvl tm s
          rw [opp_opp] at hkept
          rw [handlerOf_opp_setLast, setLast_withOutcome]
          exact .inr ⟨_, rfl, hkept.trans hput, rfl⟩
  · rw [exec_edgeRow, exec_edgeRow, edgeGate_unwired hm, edgeGate_unwired (by rwa [State.setLast_mode])]
    exact .inl rfl

theorem exec_setLast (i : Instr) : AgreeButLast x l (exec i s) (exec i (s.setLast x l)) := by
  rcases he : i.edgeOf with _ | ⟨y, m⟩
  · exact exec_foreground_setLast hput l he
  · obtain ⟨lvl, tm, rfl⟩ := edgeOf_eq_some he
    exact exec_edgeRow_setLast hput l y m lvl tm

end

/-- By induction on the operations: from the first that overwrites `last[X]` on, the two runs are one. -/
theorem runOps_setLast {x : Channel} (l : Stamp) (ops : List TraceOp) : ∀ s : State, Quiet s → s.put x = .zero →
    runOps (s.setLast x l) ops = runOps s ops ∨
      ∃ u, runOps s ops = .next u ∧ runOps (s.setLast x l) ops = .next (u.setLast x l) := by
  induction ops with
  | nil =>
    intro s _ _
    refine .inr ⟨_, rfl, ?_⟩
    cases x <;> rfl
  | cons o ops ih =>
    intro s hq hput
    have hq' : Quiet (s.setLast x l) := by simpa [Quiet] using hq
    rw [runOps_cons _ o ops hq, runOps_cons _ o ops hq', State.setLast_mode]
    obtain heq | ⟨t, ht, hput', ht'⟩ := exec_setLast hput l (o.instr s.mode)
    · exact .inl (by rw [heq])
    · rw [ht, ht', thenRun_next, thenRun_next]
      exact ih t (exec_quiet ht hq) hput'

/-- Settles O52: the two runs are one, or end in states that still differ in `last[X]` only. -/
theorem resetStampIsUnobservable : Obligations.ResetStampIsUnobservable := by
  intro x l s ops hq hput
  obtain heq | ⟨u, hu, hu'⟩ := runOps_setLast l ops s hq hput
  · rw [heq]
    cases runOps s ops with
    | next u => exact ⟨rfl, rfl, rfl⟩
    | fault f => cases f
    | refused r => rfl
  · rw [hu, hu']
    exact ⟨(State.setLast_results ..).symm, (State.setLast_notifies ..).symm, (State.setLast_counter ..).symm⟩

end Sys2Proof.Safety
end

section
/-! PROOFS. The statements about rotation with ideal edges (30_encoding.md R97): what one edge of the ideal environment does, the invariant of
43_quadruple.md R154, and the counts per cycle of R132, R142 and R153. -/

namespace Sys2Proof.Safety

open Sys2Proof Sys2Proof.Machine

/-! ## The ideal environment (R97) -/

/-- The level of a channel's own pin. -/
def pinOf (p : Pins) : Channel → Bool
  | .a => p.a
  | .b => p.b

/-- The pins after an edge of channel `x`. -/
def togglePin (p : Pins) : Channel → Pins
  | .a => { p with a := !p.a }
  | .b => { p with b := !p.b }

/-- The pseudo-operation that makes an edge of channel `x`. -/
def toggle : Channel → Stamp → Pseudo
  | .a, t => .toggleA t
  | .b, t => .toggleB t

theorem pinOf_togglePin_opp (p : Pins) (x : Channel) : pinOf (togglePin p x) (opp x) = pinOf p (opp x) := by
  cases x <;> rfl

/-- A toggle expands to one edge, with the level of the other pin. -/
theorem expandAll_toggle (c : Params) (p : Pins) (x : Channel) (t : Stamp) (qs : List Pseudo) :
    expandAll c p (toggle x t :: qs) =
      ((expandAll c (togglePin p x) qs).1, .edge x (pinOf p (opp x)) t :: (expandAll c (togglePin p x) qs).2) := by
  cases x <;> rfl

/-! ## One edge of a running machine -/

/-- Nothing stops an edge: `hold = 0`, `att = 1`, nothing in flight. -/
structure Running (s : State) : Prop where
  unmasked : s.hold = false
  attached : s.att = true
  quiet : Quiet s

/-- The state after a performed edge of channel `x`. -/
def afterEdge (x : Channel) (lvl : Bool) (t : Stamp) (s : State) : State :=
  { handlerOf x s.mode lvl t s with outcome := .done }

theorem runOps_edge {s : State} (h : Running s) (x : Channel) (lvl : Bool) (t : Stamp) (ops : List TraceOp) :
    runOps s (.edge x lvl t :: ops) = runOps (afterEdge x lvl t s) ops :=
  runOps_cons_next (o := .edge x lvl t) h.quiet (exec_edgeRow_performed rfl h.unmasked h.attached x lvl t) ops

theorem afterEdge_mode (x : Channel) (lvl : Bool) (t : Stamp) (s : State) : (afterEdge x lvl t s).mode = s.mode := by
  obtain ⟨-, ⟨-, -, hmode⟩, -⟩ := handlerOf_frame x s.mode lvl t s
  exact hmode

theorem running_afterEdge {s : State} (h : Running s) (x : Channel) (lvl : Bool) (t : Stamp) : Running (afterEdge x lvl t s) := by
  obtain ⟨-, -, -, hatt, hhold, -, -, -, hfA, hfB, -⟩ := handlerOf_frame x s.mode lvl t s
  exact ⟨hhold.trans h.unmasked, hatt.trans h.attached, hfA.trans h.quiet.1, hfB.trans h.quiet.2⟩

/-- The channel of the edge is disarmed (R118). -/
theorem afterEdge_arm (x : Channel) (lvl : Bool) (t : Stamp) (s : State) : (afterEdge x lvl t s).arm x = .zero :=
  handlerOf_arm x s.mode lvl t s

/-- A channel that resolves is armed by the edges of the other (R113). -/
theorem handlerOf_arm_opp {x : Channel} {m : Mode} (hres : (policy m (opp x)).resolves = true) (lvl : Bool) (t : Stamp)
    (s : State) : (handlerOf x m lvl t s).arm (opp x) = sign lvl := by
  match x, m with
  | .a, .std | .a, .dbl => cases hres
  | .a, .quad => rw [handlerOf, handlerAQuad_eq]; rfl
  | .b, .std | .b, .dbl => rfl
  | .b, .quad => rw [handlerOf, handlerBQuad_eq]; rfl

/-! ## The arbiter's invariant (R154) -/

/-- Every channel that resolves is disarmed or armed with the level of its pin. -/
def ArmsHoldLevels (p : Pins) (s : State) : Prop :=
  ∀ x, (policy s.mode x).resolves = true → s.arm x = .zero ∨ s.arm x = sign (pinOf p x)

/-- An edge disarms its own channel and arms the other, whose pin it does not move. -/
theorem armsHoldLevels_afterEdge (p : Pins) (s : State) (x : Channel) (t : Stamp) :
    ArmsHoldLevels (togglePin p x) (afterEdge x (pinOf p (opp x)) t s) := by
  intro y hres
  rw [afterEdge_mode] at hres
  obtain rfl | rfl := eq_self_or_opp x y
  · exact .inl (afterEdge_arm y _ t s)
  · rw [pinOf_togglePin_opp]
    exact .inr (handlerOf_arm_opp hres _ t s)

/-- By induction on the toggles. -/
theorem runOps_toggles (c : Params) (qs : List Pseudo) (hqs : ∀ q ∈ qs, ∃ t, q = .toggleA t ∨ q = .toggleB t) :
    ∀ (p : Pins) (s : State), Running s → ArmsHoldLevels p s →
    ∃ u, runOps s (expandAll c p qs).2 = .next u ∧ u.mode = s.mode ∧ ArmsHoldLevels (expandAll c p qs).1 u := by
  induction qs with
  | nil => exact fun p s _ harms => ⟨_, rfl, rfl, harms⟩
  | cons q qs ih =>
    intro p s hs _
    obtain ⟨x, t, rfl⟩ : ∃ x t, q = toggle x t := by
      obtain ⟨t, rfl | rfl⟩ := hqs q (List.mem_cons_self ..)
      · exact ⟨.a, t, rfl⟩
      · exact ⟨.b, t, rfl⟩
    rw [expandAll_toggle, runOps_edge hs]
    obtain ⟨u, hrun, hmode, harms⟩ := ih (fun q hq => hqs q (List.mem_cons_of_mem _ hq)) (togglePin p x) _
      (running_afterEdge hs x _ t) (armsHoldLevels_afterEdge p s x t)
    exact ⟨u, hrun, hmode.trans (afterEdge_mode ..), harms⟩

/-- Settles O49: channel A resolves in every mode, channel B in `QUAD`. -/
theorem armHoldsTheLevelBeingLeft : Obligations.ArmHoldsTheLevelBeingLeft := by
  intro p s qs hh ha hq hqs hA hB
  have harms : ArmsHoldLevels p s := by
    intro x hres
    cases x with
    | a => exact hA
    | b =>
      refine hB ?_
      cases hm : s.mode with
      | quad => rfl
      | std | dbl => rw [hm] at hres; cases hres
  obtain ⟨u, hrun, hmode, hu⟩ := runOps_toggles s.cfg qs hqs p s ⟨hh, ha, hq⟩ harms
  refine ⟨u, hrun, hu .a ?_, fun hm => hu .b ?_⟩
  · cases u.mode <;> rfl
  · rw [hmode, hm]; rfl

/-! ## A cycle (R132, R142, R153) -/

/-- The machine runs, and the channel toggled next, if it resolves, is armed with the level it is leaving. -/
structure ReadyFor (x : Channel) (p : Pins) (s : State) : Prop where
  running : Running s
  armed : (policy s.mode x).resolves = true → s.arm x = sign (pinOf p x)

/-- What an edge of channel `x` counts when it leaves an armed level. -/
def idealCount (m : Mode) (x : Channel) (p : Pins) : Tri := countOf m x (sign (pinOf p x)) (sign (pinOf p (opp x)))

/-- An ideal edge counts by the pins alone, and makes the other channel ready. -/
theorem readyFor_afterEdge {x : Channel} {p : Pins} {s : State} (h : ReadyFor x p s) (t : Stamp) :
    ReadyFor (opp x) (togglePin p x) (afterEdge x (pinOf p (opp x)) t s) ∧
      (afterEdge x (pinOf p (opp x)) t s).counter = s.counter + triWord (idealCount s.mode x p) := by
  refine ⟨⟨running_afterEdge h.running x _ t, fun hres => ?_⟩, ?_⟩
  · rw [afterEdge_mode] at hres
    rw [pinOf_togglePin_opp]
    exact handlerOf_arm_opp hres _ t s
  · refine (handlerOf_counter_eq x s.mode _ t s).trans ?_
    rw [idealCount, add32]
    by_cases hres : (policy s.mode x).resolves = true
    · have harmed : s.arm x ≠ .zero := by rw [h.armed hres]; exact sign_ne_zero _
      rw [recoveredArmOf, recoveredArm_armed _ _ _ _ _ harmed, h.armed hres]
    · simp [countOf, hres]

/-- Counts per cycle of a mode. -/
def perCycle : Mode → Nat
  | .std => 1
  | .dbl => 2
  | .quad => 4

/-- The counts of the four edges of a cycle, from pins `p`. -/
def cycleCount (m : Mode) (x : Channel) (p : Pins) : Word :=
  triWord (idealCount m x p) + triWord (idealCount m (opp x) (togglePin p x)) +
    triWord (idealCount m x (togglePin (togglePin p x) (opp x))) +
    triWord (idealCount m (opp x) (togglePin (togglePin (togglePin p x) (opp x)) x))

/-- A cycle of the forward sense counts up, one of the reverse sense down: every edge of it counts in that direction or not at all. -/
theorem cycleCount_eq (m : Mode) (x : Channel) (p : Pins) :
    cycleCount m x p = if (x = .a ↔ p.a = p.b) then BitVec.ofNat 32 (perCycle m) else -BitVec.ofNat 32 (perCycle m) := by
  obtain ⟨a, b⟩ := p
  cases m <;> cases x <;> revert a b <;> decide

/-- Each pin is toggled twice in a cycle. -/
theorem togglePin_cycle (p : Pins) (x : Channel) : togglePin (togglePin (togglePin (togglePin p x) (opp x)) x) (opp x) = p := by
  cases x <;> simp [togglePin]

/-- A toggle of the channel that is ready. -/
theorem runOps_toggle {x : Channel} {p : Pins} {s : State} (h : ReadyFor x p s) (c : Params) (t : Stamp) :
    ∃ u, ReadyFor (opp x) (togglePin p x) u ∧ u.mode = s.mode ∧ u.counter = s.counter + triWord (idealCount s.mode x p) ∧
      ∀ qs, runOps s (expandAll c p (toggle x t :: qs)).2 = runOps u (expandAll c (togglePin p x) qs).2 := by
  obtain ⟨hready, hcounter⟩ := readyFor_afterEdge h t
  refine ⟨_, hready, afterEdge_mode .., hcounter, fun qs => ?_⟩
  rw [expandAll_toggle, runOps_edge h.running]

/-- Four ideal edges, beginning with channel `x`. -/
def cycleOf (x : Channel) (q : Stamp × Stamp × Stamp × Stamp) : List Pseudo :=
  [toggle x q.1, toggle (opp x) q.2.1, toggle x q.2.2.1, toggle (opp x) q.2.2.2]

theorem expandAll_cycle_pins (c : Params) (p : Pins) (x : Channel) (q : Stamp × Stamp × Stamp × Stamp) (qs : List Pseudo) :
    (expandAll c p (cycleOf x q ++ qs)).1 = (expandAll c p qs).1 := by
  simp only [cycleOf, List.cons_append, List.nil_append, expandAll_toggle, togglePin_cycle]

/-- A cycle ends with the pins it began with and the same channel ready. -/
theorem runOps_cycle {x : Channel} {p : Pins} {s : State} (h : ReadyFor x p s) (c : Params) (q : Stamp × Stamp × Stamp × Stamp) :
    ∃ u, ReadyFor x p u ∧ u.mode = s.mode ∧ u.counter = s.counter + cycleCount s.mode x p ∧
      ∀ qs, runOps s (expandAll c p (cycleOf x q ++ qs)).2 = runOps u (expandAll c p qs).2 := by
  obtain ⟨u₁, h₁, hm₁, hc₁, hrun₁⟩ := runOps_toggle h c q.1
  obtain ⟨u₂, h₂, hm₂, hc₂, hrun₂⟩ := runOps_toggle h₁ c q.2.1
  rw [opp_opp] at h₂
  obtain ⟨u₃, h₃, hm₃, hc₃, hrun₃⟩ := runOps_toggle h₂ c q.2.2.1
  obtain ⟨u₄, h₄, hm₄, hc₄, hrun₄⟩ := runOps_toggle h₃ c q.2.2.2
  rw [opp_opp, togglePin_cycle] at h₄
  refine ⟨u₄, h₄, ?_, ?_, fun qs => ?_⟩
  · rw [hm₄, hm₃, hm₂, hm₁]
  · rw [hc₄, hc₃, hc₂, hc₁, hm₃, hm₂, hm₁, cycleCount]
    simp only [BitVec.add_assoc]
  · rw [cycleOf, List.cons_append, List.cons_append, List.cons_append, List.cons_append, List.nil_append, hrun₁, hrun₂, hrun₃,
      hrun₄, togglePin_cycle]

/-- By induction on the cycles. -/
theorem runOps_cycles (c : Params) (x : Channel) (p : Pins) (ts : List (Stamp × Stamp × Stamp × Stamp)) :
    ∀ s : State, ReadyFor x p s →
    ∃ u, runOps s (expandAll c p (ts.flatMap (cycleOf x))).2 = .next u ∧ (expandAll c p (ts.flatMap (cycleOf x))).1 = p ∧
      u.counter = s.counter + BitVec.ofNat 32 ts.length * cycleCount s.mode x p := by
  induction ts with
  | nil => exact fun s _ => ⟨_, rfl, rfl, by simp⟩
  | cons q ts ih =>
    intro s h
    obtain ⟨t, ht, hm, hcounter, hrun⟩ := runOps_cycle h c q
    obtain ⟨u, hu, hp, hcounter'⟩ := ih t ht
    refine ⟨u, ?_, ?_, ?_⟩
    · rw [List.flatMap_cons, hrun, hu]
    · rw [List.flatMap_cons, expandAll_cycle_pins, hp]
    · rw [hcounter', hcounter, hm, List.length_cons, BitVec.ofNat_add, BitVec.add_mul, BitVec.one_mul]
      ring

/-- Settles O48: the same count, up or down, for each cycle. -/
theorem rotationCountsPerCycle : Obligations.RotationCountsPerCycle := by
  intro x p s ts hh ha hq harm
  have hready : ReadyFor x p s := ⟨⟨hh, ha, hq⟩, fun hres => by cases x <;> exact harm hres⟩
  obtain ⟨u, hrun, hpins, hcounter⟩ := runOps_cycles s.cfg x p ts s hready
  intro toggle cycles perCycle
  have hcycles : ts.flatMap (cycleOf x) = cycles := by cases x <;> rfl
  rw [hcycles] at hrun hpins
  refine ⟨u, hrun, hpins, ?_⟩
  rw [hcounter, cycleCount_eq, BitVec.ofNat_mul]
  split
  · rw [BitVec.mul_comm]
    rfl
  · rw [BitVec.mul_comm, BitVec.neg_mul, ← BitVec.sub_eq_add_neg]
    rfl

end Sys2Proof.Safety
end
